-- ==== Sys2Proof/Word.lean ====
section
/-! DEFINITION. The word types of the block: a byte, and the 16-bit width of the wire's length, opcode and distance fields
(`spec/00_scope.md` section 5). -/

namespace Sys2Proof

/-- A byte: 8 bits (`00_scope.md` section 5). -/
abbrev Byte := BitVec 8

/-- A 16-bit wire value: length field, opcode, distance, duration, baud code (`30_encoding.md` R66). -/
abbrev Half := BitVec 16

end Sys2Proof
end

