-- ==== Sys2Proof/Syntax.lean ====
section
/-! DEFINITION. The names of the block: its 26 operations (`spec/30_encoding.md` R68), its registers (`spec/10_state.md` R12),
its address spaces (R11) and the actions of the host (`30_encoding.md` R71, R72). -/

namespace Sys2Proof

/-- The operations of the block, one constructor per row of the operation table (R68). Format OP8 has no fields: every
operand is in a register or in IBUF. -/
inductive Instr where
  | decFrame
  | decAck
  | decTarget
  | encCmd
  | bldEnableConfig
  | bldEndConfig
  | bldSetResolution
  | bldSetBasicParams
  | bldSetMotionSens
  | bldSetStaticSens
  | bldSetBaud
  | bldBluetooth
  | bldReadMac
  | bldLightSensorMode
  | bldFactoryReset
  | bldReboot
  | bldFirmwareVersion
  | bldBgcorrEnter
  | bldBgcorrRead
  | bldReadResolution
  | bldReadBasicParams
  | bldReadMotionSens
  | bldReadStaticSens
  | bldEngModeOn
  | bldEngModeOff
  | bldReadLightSensor
  deriving DecidableEq, Repr

/-- The registers of the register space, by the names of R12. The three arrays take an element number below 14. -/
inductive RegName where
  | op
  | ctrl
  | status
  | ilen
  | olen
  | rOpcode
  | argOpcode
  | argRes
  | argMin
  | argMax
  | argDur
  | argPol
  | argBaud
  | argOn
  | argGate (g : Fin 14)
  | tState
  | tMDist
  | tMEn
  | tSDist
  | tSEn
  | tEng
  | tB1
  | tB2
  | tLight
  | tCalib
  | tMGate (g : Fin 14)
  | tSGate (g : Fin 14)
  deriving DecidableEq, Repr

/-- How the host may access a register (R12): read and write, read only, or written and read back as zero. -/
inductive Access where
  | rw
  | ro
  | w
  deriving DecidableEq, Repr

/-- The three address spaces of the host port (`10_state.md` R11, `20_memory.md` R45). -/
inductive Space where
  | reg
  | ibuf
  | obuf
  deriving DecidableEq, Repr

/-- What the host can do in one step: one bus transaction of `30_encoding.md` R71 (with the index and the value as the host
gives them, in range or not), one poll of `WAIT` (R72), the reset input (`70_reset_and_hazards.md` R132), or nothing. -/
inductive HostAction where
  | write (space : Space) (index value : Nat)
  | read (space : Space) (index : Nat)
  | wait
  | reset
  | idle
  deriving DecidableEq, Repr

end Sys2Proof
end

