-- ==== Sys2Proof/Decode.lean ====
section
/-! DEFINITION. Decoding and encoding of operation codes (`spec/30_encoding.md` R68) and the register map of the host port
(`spec/10_state.md` R12). -/

namespace Sys2Proof

/-- Why bytes are no operation. -/
inductive DecodeError where
  /-- There is no byte to read. -/
  | noBytes
  /-- The operation code is not assigned (R68, R70): the started operation ends with UNSUPPORTED_OPERATION (R121). -/
  | unassignedOp (code : Byte)
  deriving DecidableEq, Repr

/-- The decode and generic encode operations of R68. -/
def opTableCodec : List (Byte × Instr) :=
  [(0x01#8, .decFrame), (0x02#8, .decAck), (0x03#8, .decTarget), (0x10#8, .encCmd)]

/-- The builders of R68 that the source names, 0x20 to 0x2E. -/
def opTableBuilders : List (Byte × Instr) :=
  [(0x20#8, .bldEnableConfig), (0x21#8, .bldEndConfig), (0x22#8, .bldSetResolution), (0x23#8, .bldSetBasicParams),
   (0x24#8, .bldSetMotionSens), (0x25#8, .bldSetStaticSens), (0x26#8, .bldSetBaud), (0x27#8, .bldBluetooth),
   (0x28#8, .bldReadMac), (0x29#8, .bldLightSensorMode), (0x2A#8, .bldFactoryReset), (0x2B#8, .bldReboot),
   (0x2C#8, .bldFirmwareVersion), (0x2D#8, .bldBgcorrEnter), (0x2E#8, .bldBgcorrRead)]

/-- The builders of R68 from general knowledge, 0x30 to 0x36 (`92_eei_decisions.md` D24). PRESUMED by the spec (log entry 11). -/
def opTableQueries : List (Byte × Instr) :=
  [(0x30#8, .bldReadResolution), (0x31#8, .bldReadBasicParams), (0x32#8, .bldReadMotionSens),
   (0x33#8, .bldReadStaticSens), (0x34#8, .bldEngModeOn), (0x35#8, .bldEngModeOff), (0x36#8, .bldReadLightSensor)]

/-- The operation table of R68. -/
def opTable : List (Byte × Instr) := opTableCodec ++ opTableBuilders ++ opTableQueries

/-- Decode one operation from the front of a byte string; total, rejecting by name. Format OP8 takes one byte. -/
def decode : List Byte → Except DecodeError (Instr × List Byte)
  | [] => .error .noBytes
  | b :: rest =>
    match opTable.lookup b with
    | some i => .ok (i, rest)
    | none => .error (.unassignedOp b)

/-- The operation code of each operation, written from the table of R68. -/
def opcodeOf : Instr → Byte
  | .decFrame => 0x01#8
  | .decAck => 0x02#8
  | .decTarget => 0x03#8
  | .encCmd => 0x10#8
  | .bldEnableConfig => 0x20#8
  | .bldEndConfig => 0x21#8
  | .bldSetResolution => 0x22#8
  | .bldSetBasicParams => 0x23#8
  | .bldSetMotionSens => 0x24#8
  | .bldSetStaticSens => 0x25#8
  | .bldSetBaud => 0x26#8
  | .bldBluetooth => 0x27#8
  | .bldReadMac => 0x28#8
  | .bldLightSensorMode => 0x29#8
  | .bldFactoryReset => 0x2A#8
  | .bldReboot => 0x2B#8
  | .bldFirmwareVersion => 0x2C#8
  | .bldBgcorrEnter => 0x2D#8
  | .bldBgcorrRead => 0x2E#8
  | .bldReadResolution => 0x30#8
  | .bldReadBasicParams => 0x31#8
  | .bldReadMotionSens => 0x32#8
  | .bldReadStaticSens => 0x33#8
  | .bldEngModeOn => 0x34#8
  | .bldEngModeOff => 0x35#8
  | .bldReadLightSensor => 0x36#8

/-- The bytes of an operation in format OP8 (R68). -/
def encode (i : Instr) : List Byte := [opcodeOf i]

/-- The bytes of an instruction whose bits are `w`, `nbits` of them given and the rest zero: byte `k` is bits
`8k+7..8k`. The longest instruction has one byte. -/
def tableBytes (nbits w : Nat) : List Byte :=
  (List.range (max 1 (nbits / 8))).map fun k => BitVec.ofNat 8 ((w % 2 ^ nbits) / 2 ^ (8 * k))

/-- What the decoder reads from the bits of one row of the opcode table: one operation and nothing behind it. -/
def decodeTableWord (nbits w : Nat) : Option Instr :=
  match decode (tableBytes nbits w) with
  | .ok (i, []) => some i
  | _ => none

/-- The index of each register in the register space (R12). -/
def regIndex : RegName → Nat
  | .op => 0x000
  | .ctrl => 0x001
  | .status => 0x002
  | .ilen => 0x003
  | .olen => 0x004
  | .rOpcode => 0x005
  | .argOpcode => 0x010
  | .argRes => 0x011
  | .argMin => 0x012
  | .argMax => 0x013
  | .argDur => 0x014
  | .argPol => 0x015
  | .argBaud => 0x016
  | .argOn => 0x017
  | .argGate g => 0x020 + g.val
  | .tState => 0x041
  | .tMDist => 0x042
  | .tMEn => 0x043
  | .tSDist => 0x044
  | .tSEn => 0x045
  | .tEng => 0x046
  | .tB1 => 0x047
  | .tB2 => 0x048
  | .tLight => 0x049
  | .tCalib => 0x04A
  | .tMGate g => 0x050 + g.val
  | .tSGate g => 0x060 + g.val

/-- Element `n - base` of an array of fourteen registers that starts at index `base`. -/
def gateAt (base n : Nat) : Option (Fin 14) :=
  if h : n - base < 14 then (if base ≤ n then some ⟨n - base, h⟩ else none) else none

/-- The single registers of R12, by index. -/
def singleRegs : List (Nat × RegName) :=
  [(0x000, .op), (0x001, .ctrl), (0x002, .status), (0x003, .ilen), (0x004, .olen), (0x005, .rOpcode),
   (0x010, .argOpcode), (0x011, .argRes), (0x012, .argMin), (0x013, .argMax), (0x014, .argDur), (0x015, .argPol),
   (0x016, .argBaud), (0x017, .argOn)] ++
  [(0x041, .tState), (0x042, .tMDist), (0x043, .tMEn), (0x044, .tSDist), (0x045, .tSEn), (0x046, .tEng),
   (0x047, .tB1), (0x048, .tB2), (0x049, .tLight), (0x04A, .tCalib)]

/-- The register at an index, `none` where the index is unassigned (R12). -/
def regAt (n : Nat) : Option RegName :=
  match singleRegs.lookup n with
  | some r => some r
  | none =>
    match gateAt 0x020 n with
    | some g => some (.argGate g)
    | none =>
      match gateAt 0x050 n with
      | some g => some (.tMGate g)
      | none =>
        match gateAt 0x060 n with
        | some g => some (.tSGate g)
        | none => none

/-- The width of each register in bits (R12). -/
def regWidth : RegName → Nat
  | .op => 8
  | .ctrl => 8
  | .status => 8
  | .ilen => 16
  | .olen => 16
  | .rOpcode => 16
  | .argOpcode => 16
  | .argRes => 2
  | .argMin => 8
  | .argMax => 8
  | .argDur => 16
  | .argPol => 1
  | .argBaud => 32
  | .argOn => 1
  | .argGate _ => 8
  | .tState => 8
  | .tMDist => 16
  | .tMEn => 8
  | .tSDist => 16
  | .tSEn => 8
  | .tEng => 1
  | .tB1 => 8
  | .tB2 => 8
  | .tLight => 8
  | .tCalib => 8
  | .tMGate _ => 8
  | .tSGate _ => 8

/-- The host's access to each register (R12). -/
def regAccess : RegName → Access
  | .op => .rw
  | .ctrl => .w
  | .status => .ro
  | .ilen => .rw
  | .olen => .ro
  | .rOpcode => .ro
  | .argOpcode => .rw
  | .argRes => .rw
  | .argMin => .rw
  | .argMax => .rw
  | .argDur => .rw
  | .argPol => .rw
  | .argBaud => .rw
  | .argOn => .rw
  | .argGate _ => .rw
  | .tState => .ro
  | .tMDist => .ro
  | .tMEn => .ro
  | .tSDist => .ro
  | .tSEn => .ro
  | .tEng => .ro
  | .tB1 => .ro
  | .tB2 => .ro
  | .tLight => .ro
  | .tCalib => .ro
  | .tMGate _ => .ro
  | .tSGate _ => .ro

end Sys2Proof
end

