-- ==== Sys2Proof/Config.lean ====
section
/-! DEFINITION. What an instance of the block fixes (`spec/00_scope.md` R2) and the free values of the model. Every OPEN
parameter is part of ONE opaque constant: nothing can be proved of it but the constraints the spec states. -/

namespace Sys2Proof

/-- The configuration parameters of R2, R80 and R81, under the spec's names: `opc…` is `P_OPC_…`, `pl…` is `P_PL_…`. -/
structure Params where
  /-- `P_IBUF_CAP` -/
  ibufCap : Nat
  opcEndConfig : Half
  opcSetBasicParams : Half
  opcSetMotionSens : Half
  opcSetStaticSens : Half
  opcSetBaud : Half
  opcBluetooth : Half
  opcReadMac : Half
  opcLightSensorMode : Half
  opcFactoryReset : Half
  opcReboot : Half
  opcBgcorrEnter : Half
  opcBgcorrRead : Half
  opcReadResolution : Half
  opcReadBasicParams : Half
  opcReadMotionSens : Half
  opcReadStaticSens : Half
  opcEngModeOn : Half
  opcEngModeOff : Half
  opcReadLightSensor : Half
  plBtOn : List Byte
  plBtOff : List Byte
  plReadMac : List Byte
  plLightSensorMode : List Byte
  plFactoryReset : List Byte
  plReboot : List Byte
  plFirmwareVersion : List Byte
  plBgcorrEnter : List Byte
  plBgcorrRead : List Byte
  plReadResolution : List Byte
  plReadBasicParams : List Byte
  plReadMotionSens : List Byte
  plReadStaticSens : List Byte
  plEngModeOn : List Byte
  plEngModeOff : List Byte
  plReadLightSensor : List Byte
  /-- `P_RES_CODE[0]`: the wire byte of 75 cm -/
  resCode0 : Byte
  /-- `P_RES_CODE[1]`: the wire byte of 50 cm -/
  resCode1 : Byte
  /-- `P_RES_CODE[2]`: the wire byte of 25 cm -/
  resCode2 : Byte
  /-- `P_BAUD_TABLE`: baud value to protocol code -/
  baudTable : List (BitVec 32 × Half)
  deriving DecidableEq, Repr, Inhabited

/-- The three wire opcodes the source gives (R80): EnableConfiguration, Resolution, FirmwareVersion. -/
def opcEnableConfig : Half := 0x00FF#16
def opcSetResolution : Half := 0x0001#16
def opcFirmwareVersion : Half := 0x00A0#16

/-- `P_OBUF_CAP` (R2). -/
def Params.obufCap (p : Params) : Nat := p.ibufCap + 12

/-- The twenty-two wire opcodes of R80, in the order of its table. -/
def Params.wireOpcodes (p : Params) : List Half :=
  [opcEnableConfig, opcSetResolution, opcFirmwareVersion,
   p.opcEndConfig, p.opcSetBasicParams, p.opcSetMotionSens, p.opcSetStaticSens, p.opcSetBaud, p.opcBluetooth,
   p.opcReadMac, p.opcLightSensorMode, p.opcFactoryReset, p.opcReboot, p.opcBgcorrEnter, p.opcBgcorrRead,
   p.opcReadResolution, p.opcReadBasicParams, p.opcReadMotionSens, p.opcReadStaticSens, p.opcEngModeOn,
   p.opcEngModeOff, p.opcReadLightSensor]

/-- The sixteen fixed payloads of R81. -/
def Params.payloads (p : Params) : List (List Byte) :=
  [p.plBtOn, p.plBtOff, p.plReadMac, p.plLightSensorMode, p.plFactoryReset, p.plReboot, p.plFirmwareVersion,
   p.plBgcorrEnter, p.plBgcorrRead, p.plReadResolution, p.plReadBasicParams, p.plReadMotionSens,
   p.plReadStaticSens, p.plEngModeOn, p.plEngModeOff, p.plReadLightSensor]

/-- The keys of `P_BAUD_TABLE`. -/
def Params.baudKeys (p : Params) : List (BitVec 32) := p.baudTable.map Prod.fst

/-- The bounds of `P_IBUF_CAP` (R2, D5). -/
def Params.capOk (p : Params) : Bool := decide (72 ≤ p.ibufCap) && decide (p.ibufCap ≤ 65533)

/-- The wire opcodes are pairwise distinct (R80). -/
def Params.opcodesOk (p : Params) : Bool := decide p.wireOpcodes.Nodup

/-- Each fixed payload has at most 60 bytes (R81). -/
def Params.payloadsOk (p : Params) : Bool := p.payloads.all fun pl => decide (pl.length ≤ 60)

/-- The resolution codes are three distinct bytes (R2, D22). -/
def Params.resCodesOk (p : Params) : Bool := decide [p.resCode0, p.resCode1, p.resCode2].Nodup

/-- `P_BAUD_TABLE` is a map whose keys include 9600 and 460800 and lie between them (R2, D23). -/
def Params.baudOk (p : Params) : Bool :=
  decide p.baudKeys.Nodup && p.baudKeys.contains 9600#32 && p.baudKeys.contains 460800#32 &&
    p.baudKeys.all fun k => decide (9600 ≤ k.toNat) && decide (k.toNat ≤ 460800)

/-- All constraints the spec puts on the parameters (R2, R80, R81, D20 to D23). -/
def Params.valid (p : Params) : Bool :=
  p.capOk && p.opcodesOk && p.payloadsOk && p.resCodesOk && p.baudOk

/-- Configuration CAND of `95_test_vectors.md` section 0 (`93_implementation_defined.md` section 3), with one byte for the
`P_RES_CODE[2]` that CAND leaves symbolic. PRESUMED (log entry 4), safe: it only witnesses that the constraints can be met;
nothing can be proved to rest on it through `Config.params`. -/
def Config.cand : Params where
  ibufCap := 72
  opcEndConfig := 0x00FE#16
  opcSetBasicParams := 0x0002#16
  opcSetMotionSens := 0x0003#16
  opcSetStaticSens := 0x0004#16
  opcSetBaud := 0x00A1#16
  opcBluetooth := 0x00A4#16
  opcReadMac := 0x00A5#16
  opcLightSensorMode := 0x000C#16
  opcFactoryReset := 0x00A2#16
  opcReboot := 0x00A3#16
  opcBgcorrEnter := 0x000B#16
  opcBgcorrRead := 0x001B#16
  opcReadResolution := 0x0011#16
  opcReadBasicParams := 0x0012#16
  opcReadMotionSens := 0x0013#16
  opcReadStaticSens := 0x0014#16
  opcEngModeOn := 0x0062#16
  opcEngModeOff := 0x0063#16
  opcReadLightSensor := 0x001C#16
  plBtOn := [0x01#8, 0x00#8]
  plBtOff := [0x00#8, 0x00#8]
  plReadMac := [0x01#8, 0x00#8]
  plLightSensorMode := []
  plFactoryReset := []
  plReboot := []
  plFirmwareVersion := []
  plBgcorrEnter := []
  plBgcorrRead := []
  plReadResolution := []
  plReadBasicParams := []
  plReadMotionSens := []
  plReadStaticSens := []
  plEngModeOn := []
  plEngModeOff := []
  plReadLightSensor := []
  resCode0 := 0x00#8
  resCode1 := 0x01#8
  resCode2 := 0x03#8
  baudTable :=
    [(9600#32, 0x0001#16), (19200#32, 0x0002#16), (38400#32, 0x0003#16), (57600#32, 0x0004#16),
     (115200#32, 0x0005#16), (230400#32, 0x0006#16), (256000#32, 0x0007#16), (460800#32, 0x0008#16)]

/-- An unconstrained choice of parameters: no body, so nothing is known of it (log entry 4). -/
opaque Config.rawParams : Params

/-- The parameters of THIS instance (R2): any parameters that meet the spec's constraints, and nothing more is known of them.
DESIGN CHOICE (log entry 4), safe: the guard only carries the constraints. -/
def Config.params : Params := if Config.rawParams.valid then Config.rawParams else Config.cand

/-- The latency draw of `70_reset_and_hazards.md` R141, D8: how many steps beyond the first pass between the `n`-th START and
its completion. A free value, DESIGN CHOICE in its form (log entry 2), safe. -/
opaque Config.latency : Nat → Nat

/-- What OLEN holds after a byte string of 65536 bytes or more is emitted: `emit` writes a length that OLEN's 16 bits cannot
hold, and the spec states no result. A free value of the emitted bytes, DESIGN CHOICE (log entry 5), safe. -/
opaque Config.olenTooLong : List Byte → Half

end Sys2Proof
end

