-- ==== Sys2Proof/Machine/State.lean ====
section
/-! DEFINITION. The state of the block as plain data: the registers of `spec/10_state.md` R12, the two buffers (R22, R32), the
operation in progress (R17), and the host agent's pending actions and received values (R10). -/

namespace Sys2Proof.Machine

/-- The outcome of an operation, STATUS.CODE (`30_encoding.md` R69). -/
inductive StatusCode where
  | ok
  | notRecognized
  | frameMalformed
  | lengthMismatch
  | unknownDiscriminator
  | unknownTargetState
  | unknownBaudRate
  | unsupportedOperation
  | invalidOperand
  deriving DecidableEq, Repr

/-- The frame kind an operation matched, STATUS.KIND (`10_state.md` R20). -/
inductive FrameKind where
  | none
  | cmdAck
  | target
  deriving DecidableEq, Repr

/-- A byte buffer: the bytes that hold a value, by rising index. A byte not listed holds no value (R13). -/
abbrev Memory := List Host.Cell

/-- The canonical form of a buffer: indices strictly rise (so none is listed twice). -/
def Memory.wf : Memory → Bool
  | [] => true
  | [_] => true
  | (a, _) :: (b, y) :: m => decide (a < b) && Memory.wf ((b, y) :: m)

/-- The operand registers ARG_* (R23 to R30); `none` is the spec's own state "holds no value" (R13; log entry 3). -/
structure Operands where
  argOpcode : Option Half
  argRes : Option (BitVec 2)
  argMin : Option Byte
  argMax : Option Byte
  argDur : Option Half
  argPol : Option (BitVec 1)
  argBaud : Option (BitVec 32)
  argOn : Option (BitVec 1)
  argGate : Vector (Option Byte) 14
  deriving DecidableEq, Repr

/-- What the codec writes: every RO register but STATUS, and OBUF (R31 to R41); `none` is "holds no value" (R13). -/
structure Results where
  olen : Option Half
  rOpcode : Option Half
  tState : Option Byte
  tMDist : Option Half
  tMEn : Option Byte
  tSDist : Option Half
  tSEn : Option Byte
  tEng : Option (BitVec 1)
  tB1 : Option Byte
  tB2 : Option Byte
  tLight : Option Byte
  tCalib : Option Byte
  tMGate : Vector (Option Byte) 14
  tSGate : Vector (Option Byte) 14
  obuf : Memory
  deriving DecidableEq, Repr

/-- One value a host read returned: the place and the value of its whole width (`20_memory.md` R50). -/
structure HostRead where
  space : Space
  index : Nat
  value : Nat
  deriving DecidableEq, Repr

/-- The state of the block and of the host's port to it. CTRL holds no state (R15). -/
structure State where
  /-- OP (R14) -/
  op : Option Byte
  /-- STATUS (R16) -/
  status : Byte
  /-- ILEN (R21) -/
  ilen : Half
  /-- ARG_* (R23 to R30) -/
  args : Operands
  /-- IBUF (R22) -/
  ibuf : Memory
  /-- the RO registers but STATUS, and OBUF (R31 to R41) -/
  res : Results
  /-- while BUSY = 1: steps still to pass before the completion step (R17, R141) -/
  left : Nat
  /-- the MODEL's own: how many latency draws have been taken (log entry 2) -/
  draws : Nat
  /-- the MODEL's own: the host's actions still to come, the next one first (R71, R144; log entry 1) -/
  host : List HostAction
  /-- the MODEL's own: what the host's reads returned, oldest first (log entry 12) -/
  reads : List HostRead
  deriving DecidableEq, Repr

/-- Why the machine stops. Each is a fault the spec asks a model to record and never clear (`10_state.md` R13,
`60_exceptions.md` R123, `70_reset_and_hazards.md` R136, R137); all are safe: a claim about the hardware's unspecified effect
there cannot be proved. -/
inductive Fault where
  /-- A START, or a completion step, with OP holding no value (R123; vector U6). Raised by `startOp` and `completeOp`. Safe. -/
  | opNoValue
  /-- An operation that reads an operand register holding no value (R123). Raised by `startOp` and the meanings. Safe. -/
  | operandNoValue
  /-- An operation that reads a byte of `IBUF[0..ILEN)` holding no value (R123). Raised by `startOp` and the meanings. Safe. -/
  | inputNoValue
  /-- A host read of a register or buffer byte that holds no value (R13). Raised by `hostRead`. Safe. -/
  | readNoValue
  /-- A host access to an index outside its space (R136 item 1). Raised by `hostRead` and `hostWrite`. Safe. -/
  | unassignedIndex
  /-- A host write to an RO register or to OBUF (R136 item 2). Raised by `hostWrite`. Safe. -/
  | writeReadOnly
  /-- A host write of a value wider than its target (R136 item 3). Raised by `hostWrite`. Safe. -/
  | valueTooWide
  /-- A host write of CTRL with a reserved bit set (R136 item 4). Raised by `hostWrite`. Safe. -/
  | ctrlReserved
  /-- A host write of ILEN above the capacity of IBUF (R136 item 5). Raised by `hostWrite`. Safe. -/
  | ilenTooLarge
  /-- A host write of OP, CTRL, ILEN, IBUF or an operand register while BUSY = 1 (R136 item 6, R137). Raised by `hostWrite`.
  Safe. -/
  | writeWhileBusy
  deriving DecidableEq, Repr

/-- Why an instruction has no meaning. -/
inductive Refusal where
  /-- The operation is not modelled yet. Raised by `exec` alone; no arm of this model raises it. Safe. -/
  | notModelled (mnemonic : String)
  deriving DecidableEq, Repr

/-- No operand register holds a value (R133). -/
def Operands.empty : Operands :=
  { argOpcode := none, argRes := none, argMin := none, argMax := none, argDur := none, argPol := none,
    argBaud := none, argOn := none, argGate := Vector.replicate 14 none }

/-- No RO register but STATUS and no byte of OBUF holds a value (R17, R133). -/
def Results.empty : Results :=
  { olen := none, rOpcode := none, tState := none, tMDist := none, tMEn := none, tSDist := none, tSEn := none,
    tEng := none, tB1 := none, tB2 := none, tLight := none, tCalib := none,
    tMGate := Vector.replicate 14 none, tSGate := Vector.replicate 14 none, obuf := [] }

/-- The machine right after reset (`70_reset_and_hazards.md` R133): STATUS = 0x00, ILEN = 0x0000, everything else holds no
value. The model's own fields start at zero and empty (DESIGN CHOICE, log entry 12). -/
def State.reset : State :=
  { op := none, status := 0x00#8, ilen := 0x0000#16, args := Operands.empty, ibuf := [], res := Results.empty,
    left := 0, draws := 0, host := [], reads := [] }

end Sys2Proof.Machine
end

