-- ==== Sys2Proof/Machine/Flags.lean ====
section
/-! DEFINITION. The STATUS register: its fields and its values (`spec/10_state.md` R16, R19, R20; `spec/30_encoding.md` R69). -/

namespace Sys2Proof.Machine

/-- The number of each outcome in STATUS.CODE (R69). -/
def codeBits : StatusCode → BitVec 4
  | .ok => 0#4
  | .notRecognized => 1#4
  | .frameMalformed => 2#4
  | .lengthMismatch => 3#4
  | .unknownDiscriminator => 4#4
  | .unknownTargetState => 5#4
  | .unknownBaudRate => 6#4
  | .unsupportedOperation => 7#4
  | .invalidOperand => 8#4

/-- The number of each frame kind in STATUS.KIND (R20). -/
def kindBits : FrameKind → BitVec 2
  | .none => 0#2
  | .cmdAck => 1#2
  | .target => 2#2

/-- STATUS from its four fields: KIND in bits 7:6, CODE in bits 5:2, DONE in bit 1, BUSY in bit 0 (R16). -/
def statusOf (kind : BitVec 2) (code : BitVec 4) (done busy : Bool) : Byte :=
  kind ++ code ++ BitVec.ofBool done ++ BitVec.ofBool busy

/-- STATUS from START to completion: BUSY = 1 and nothing else (R17). -/
def statusBusy : Byte := statusOf 0#2 0#4 false true

/-- STATUS after completion with an outcome and a kind (R17). -/
def statusDone (code : StatusCode) (kind : FrameKind) : Byte := statusOf (kindBits kind) (codeBits code) true false

/-- STATUS.BUSY (R16). -/
def State.busy (s : State) : Bool := s.status.getLsbD 0

/-- STATUS.DONE (R16). -/
def State.done (s : State) : Bool := s.status.getLsbD 1

/-- STATUS.CODE (R16). -/
def State.code (s : State) : BitVec 4 := s.status.extractLsb' 2 4

/-- STATUS.KIND (R16). -/
def State.kind (s : State) : BitVec 2 := s.status.extractLsb' 6 2

end Sys2Proof.Machine
end

