-- ==== Sys2Proof/Machine/Ops.lean ====
section
/-! DEFINITION. The shared operations: byte strings (`spec/00_scope.md` section 5, `spec/20_memory.md` R46), the byte buffers
(R45, R51), and the two events of an operation with its outcomes (`spec/10_state.md` R17, `spec/60_exceptions.md` R114). -/

namespace Sys2Proof.Machine

/-- `le16(a, b)`: a 16-bit value from its low byte and its high byte (R46). -/
def le16 (lo hi : Byte) : Half := hi ++ lo

/-- `lo8(v)`. -/
def lo8 (v : Half) : Byte := v.extractLsb' 0 8

/-- `hi8(v)`. -/
def hi8 (v : Half) : Byte := v.extractLsb' 8 8

/-- `u16le(v)`: low byte first (R46). -/
def u16le (v : Half) : List Byte := [lo8 v, hi8 v]

/-- `sext_8(b)`: the integer a byte is as 8-bit two's complement. PRESUMED by the spec (log entry 14). -/
def sext8 (b : Byte) : Int := b.toInt

/-- `s[i]`, used only below the length of `s`, where every caller has checked it (R51). -/
def byteAt (s : List Byte) (i : Nat) : Byte := s.getD i 0#8

/-- `s[a..b)`. -/
def slice (s : List Byte) (a b : Nat) : List Byte := (s.drop a).take (b - a)

/-- Every element of a list of registers, if each holds a value. -/
def allHeld {α : Type} : List (Option α) → Option (List α)
  | [] => some []
  | none :: _ => none
  | some a :: l =>
    match allHeld l with
    | some t => some (a :: t)
    | none => none

/-- The byte a buffer holds at an index, `none` where it holds no value (R13). -/
def Memory.read : Memory → Nat → Option Byte
  | [], _ => none
  | (a, b) :: m, k => if a = k then some b else Memory.read m k

/-- Write one byte; every other byte stays (R50). Keeps the canonical form. -/
def Memory.write : Memory → Nat → Byte → Memory
  | [], k, v => [(k, v)]
  | (a, b) :: m, k, v =>
    if k < a then (k, v) :: (a, b) :: m
    else if k = a then (k, v) :: m
    else (a, b) :: Memory.write m k v

/-- `n` bytes from index `a` on, if each holds a value. -/
def Memory.bytesFrom (m : Memory) : Nat → Nat → Option (List Byte)
  | _, 0 => some []
  | a, n + 1 =>
    match m.read a with
    | none => none
    | some b =>
      match Memory.bytesFrom m (a + 1) n with
      | some t => some (b :: t)
      | none => none

/-- The buffer that holds a byte string from index `a` on and nothing else. -/
def Memory.ofBytes : Nat → List Byte → Memory
  | _, [] => []
  | a, b :: t => (a, b) :: Memory.ofBytes (a + 1) t

/-- The value of OLEN for an emitted byte string: its length (R31). Where 16 bits cannot hold it (65536 bytes and more), the
spec states no value: a free value, DESIGN CHOICE (log entry 5), safe. -/
def olenOf (s : List Byte) : Half :=
  if s.length < 65536 then BitVec.ofNat 16 s.length else Config.olenTooLong s

/-- `emit(s)` into result registers (`00_scope.md` section 5). START left OBUF without values (R17), so OBUF then holds exactly
`s` (R32). -/
def Results.emit (r : Results) (s : List Byte) : Results :=
  { r with olen := some (olenOf s), obuf := Memory.ofBytes 0 s }

/-- The START event (R17): STATUS becomes BUSY alone, every RO register other than STATUS and every byte of OBUF is left
without a value, and the latency is drawn (R141). The draw may leave no step before the completion step, so a host may have no
turn while BUSY = 1 and a WAIT may read no 0x01, where the prose of `95_test_vectors.md` section 3 says one or more and its
listing P1 writes `*`. DESIGN CHOICE (log entry 2), safe. -/
def startEvent (s : State) : State :=
  { s with status := statusBusy, res := Results.empty, left := Config.latency s.draws, draws := s.draws + 1 }

/-- The completion event (R17): the results and STATUS in one event. The result registers the operation's rule does not name
hold no value, as START left them (R17, R114); nothing else changes (R125, D28). -/
def finish (code : StatusCode) (kind : FrameKind) (r : Results) (s : State) : Host.Outcome State Fault Refusal :=
  .next { s with status := statusDone code kind, res := r }

/-- `raise E with KIND = k`, the block's one way to take an error (R114, R125): STATUS says so and no result is written. No
state is saved, no mode changes, no handler runs. -/
def raise (code : StatusCode) (kind : FrameKind) (s : State) : Host.Outcome State Fault Refusal :=
  finish code kind Results.empty s

/-- The reset input (`70_reset_and_hazards.md` R132, R133): an operation in progress is abandoned and every register and buffer
byte takes its reset value. What the host has received and has still to do, and the count of draws, are not the block's. -/
def resetEvent (s : State) : State :=
  { State.reset with draws := s.draws, host := s.host, reads := s.reads }

end Sys2Proof.Machine
end

