-- ==== Sys2Proof/Machine/Operands.lean ====
section
/-! DEFINITION. Every form an operand takes: an operand register, the fourteen gate registers, and the input byte string IN
(`spec/10_state.md` R21 to R30). An operand that holds no value is the fault of `spec/60_exceptions.md` R123. -/

namespace Sys2Proof.Machine

/-- Go on with an operand register's value; without one, the fault of R123. -/
def withOperand {α : Type} (o : Option α) (f : α → Host.Outcome State Fault Refusal) :
    Host.Outcome State Fault Refusal :=
  match o with
  | some a => f a
  | none => .fault .operandNoValue

/-- `IN` = `IBUF[0..ILEN)` (R21), if each of its bytes holds a value. -/
def inputBytes (s : State) : Option (List Byte) := s.ibuf.bytesFrom 0 s.ilen.toNat

/-- Go on with `IN`; without a value in one of its bytes, the fault of R123. -/
def withInput (s : State) (f : List Byte → Host.Outcome State Fault Refusal) : Host.Outcome State Fault Refusal :=
  match inputBytes s with
  | some bytes => f bytes
  | none => .fault .inputNoValue

/-- `ARG_GATE[0] ++ … ++ ARG_GATE[13]` (R30), if each holds a value. -/
def gateBytes (s : State) : Option (List Byte) := allHeld s.args.argGate.toList

/-- The operand registers of the gate array, in order. -/
def gateRegs : List RegName := (List.finRange 14).map .argGate

/-- The operand registers an operation reads (`opcode_table.json` `fields`, D36). -/
def operandRegs : Instr → List RegName
  | .decFrame => []
  | .decAck => []
  | .decTarget => []
  | .encCmd => [.argOpcode]
  | .bldEnableConfig => []
  | .bldEndConfig => []
  | .bldSetResolution => [.argRes]
  | .bldSetBasicParams => [.argMin, .argMax, .argDur, .argPol]
  | .bldSetMotionSens => gateRegs
  | .bldSetStaticSens => gateRegs
  | .bldSetBaud => [.argBaud]
  | .bldBluetooth => [.argOn]
  | .bldReadMac => []
  | .bldLightSensorMode => []
  | .bldFactoryReset => []
  | .bldReboot => []
  | .bldFirmwareVersion => []
  | .bldBgcorrEnter => []
  | .bldBgcorrRead => []
  | .bldReadResolution => []
  | .bldReadBasicParams => []
  | .bldReadMotionSens => []
  | .bldReadStaticSens => []
  | .bldEngModeOn => []
  | .bldEngModeOff => []
  | .bldReadLightSensor => []

/-- The operations that read `IN` (R21, R45): the decoders and ENC_CMD. -/
def readsInput : Instr → Bool
  | .decFrame => true
  | .decAck => true
  | .decTarget => true
  | .encCmd => true
  | .bldEnableConfig => false
  | .bldEndConfig => false
  | .bldSetResolution => false
  | .bldSetBasicParams => false
  | .bldSetMotionSens => false
  | .bldSetStaticSens => false
  | .bldSetBaud => false
  | .bldBluetooth => false
  | .bldReadMac => false
  | .bldLightSensorMode => false
  | .bldFactoryReset => false
  | .bldReboot => false
  | .bldFirmwareVersion => false
  | .bldBgcorrEnter => false
  | .bldBgcorrRead => false
  | .bldReadResolution => false
  | .bldReadBasicParams => false
  | .bldReadMotionSens => false
  | .bldReadStaticSens => false
  | .bldEngModeOn => false
  | .bldEngModeOff => false
  | .bldReadLightSensor => false

/-- The value of a register that may hold none, as the number a host read returns. -/
def held {w : Nat} (o : Option (BitVec w)) : Option Nat := o.map BitVec.toNat

/-- What a register holds, as a number of its width; `none` where it holds no value (R13). CTRL reads as zero (R15). -/
def readReg (r : RegName) (s : State) : Option Nat :=
  match r with
  | .op => held s.op
  | .ctrl => some 0
  | .status => some s.status.toNat
  | .ilen => some s.ilen.toNat
  | .olen => held s.res.olen
  | .rOpcode => held s.res.rOpcode
  | .argOpcode => held s.args.argOpcode
  | .argRes => held s.args.argRes
  | .argMin => held s.args.argMin
  | .argMax => held s.args.argMax
  | .argDur => held s.args.argDur
  | .argPol => held s.args.argPol
  | .argBaud => held s.args.argBaud
  | .argOn => held s.args.argOn
  | .argGate g => held s.args.argGate[g]
  | .tState => held s.res.tState
  | .tMDist => held s.res.tMDist
  | .tMEn => held s.res.tMEn
  | .tSDist => held s.res.tSDist
  | .tSEn => held s.res.tSEn
  | .tEng => held s.res.tEng
  | .tB1 => held s.res.tB1
  | .tB2 => held s.res.tB2
  | .tLight => held s.res.tLight
  | .tCalib => held s.res.tCalib
  | .tMGate g => held s.res.tMGate[g]
  | .tSGate g => held s.res.tSGate[g]

/-- Every operand register an operation reads holds a value. -/
def regsHeld (i : Instr) (s : State) : Bool := (operandRegs i).all fun r => (readReg r s).isSome

/-- The input bytes hold values, if the operation reads them. -/
def inputHeld (i : Instr) (s : State) : Bool := !readsInput i || (inputBytes s).isSome

/-- The fault of R123 that a START of the operation raises, if an operand it reads holds no value. R123 gives one fault without a
name: where an operand register and a byte of IN both hold no value, the register's is named. DESIGN CHOICE (log entry 9), safe. -/
def operandFault (i : Instr) (s : State) : Option Fault :=
  if regsHeld i s then (if inputHeld i s then none else some .inputNoValue) else some .operandNoValue

end Sys2Proof.Machine
end

