-- ==== Sys2Proof/Machine/Envelope.lean ====
section
/-! DEFINITION. The Envelope Codec (`spec/40_envelope.md`): the magic pairs, the envelope decode and encode, and the operations
DEC_FRAME and ENC_CMD. -/

namespace Sys2Proof.Machine

/-- The Command/Ack prefix and suffix, the Target prefix and suffix (`30_encoding.md` R58). -/
def cmdHead : List Byte := [0xFD#8, 0xFC#8, 0xFB#8, 0xFA#8]
def cmdTail : List Byte := [0x04#8, 0x03#8, 0x02#8, 0x01#8]
def tgtHead : List Byte := [0xF4#8, 0xF3#8, 0xF2#8, 0xF1#8]
def tgtTail : List Byte := [0xF8#8, 0xF7#8, 0xF6#8, 0xF5#8]

/-- Whether a byte string matches a magic pair: at least 8 bytes, the first 4 and the last 4 as given (R74). -/
def matchesPair (s head tail : List Byte) : Bool :=
  decide (8 ≤ s.length) && (slice s 0 4 == head) && (slice s (s.length - 4) s.length == tail)

/-- The length field of a frame (`30_encoding.md` R59, R60). -/
def declaredLength (s : List Byte) : Half := le16 (byteAt s 4) (byteAt s 5)

/-- What the envelope decode returns (R75). -/
inductive EnvResult where
  | noMatch
  | err (code : StatusCode) (kind : FrameKind)
  | cmdAck (opcode : Half) (payload : List Byte)
  | target (intra : List Byte)
  deriving DecidableEq, Repr

/-- `env_decode(s)` (R75). -/
def envDecode (s : List Byte) : EnvResult :=
  if matchesPair s cmdHead cmdTail then
    if s.length < 12 then .err .frameMalformed .cmdAck
    else if (declaredLength s).toNat ≠ s.length - 10 then .err .lengthMismatch .cmdAck
    else .cmdAck (le16 (byteAt s 6) (byteAt s 7)) (slice s 8 (s.length - 4))
  else if matchesPair s tgtHead tgtTail then
    if s.length < 10 then .err .frameMalformed .target
    else if (declaredLength s).toNat ≠ s.length - 10 then .err .lengthMismatch .target
    else .target (slice s 6 (s.length - 4))
  else .noMatch

/-- A Command/Ack frame: prefix, payload length + 2, opcode, payload, suffix (`30_encoding.md` R59, R77). -/
def cmdFrame (opcode : Half) (payload : List Byte) : List Byte :=
  cmdHead ++ u16le (BitVec.ofNat 16 (payload.length + 2)) ++ u16le opcode ++ payload ++ cmdTail

/-- The common serialisation `BUILD(c, p)` (`41_command_builders.md` R82), which is ENC_CMD's own (R73). -/
def build (opcode : Half) (payload : List Byte) (s : State) : Host.Outcome State Fault Refusal :=
  finish .ok .none (Results.empty.emit (cmdFrame opcode payload)) s

/-- The outcome of a decode that yields an opcode and a payload (R76, `43_ack_decoder.md` R112). -/
def finishCmdAck (opcode : Half) (payload : List Byte) (s : State) : Host.Outcome State Fault Refusal :=
  finish .ok .cmdAck ({ Results.empty with rOpcode := some opcode }.emit payload) s

/-- DEC_FRAME (R76). -/
def execDecFrame (s : State) : Host.Outcome State Fault Refusal :=
  withInput s fun bytes =>
    match envDecode bytes with
    | .noMatch => finish .notRecognized .none Results.empty s
    | .err code kind => raise code kind s
    | .cmdAck opcode payload => finishCmdAck opcode payload s
    | .target intra => finish .ok .target (Results.empty.emit intra) s

/-- ENC_CMD (R77): the opcode from ARG_OPCODE, the payload from IN (D40). Which fault is named where both hold no value is log
entry 9's choice. -/
def execEncCmd (s : State) : Host.Outcome State Fault Refusal :=
  withOperand s.args.argOpcode fun opcode => withInput s fun payload => build opcode payload s

end Sys2Proof.Machine
end

