-- ==== Sys2Proof/Machine/Ack.lean ====
section
/-! DEFINITION. The Acknowledgement Decoder (`spec/43_ack_decoder.md`): the operation DEC_ACK. -/

namespace Sys2Proof.Machine

/-- DEC_ACK (R112): the envelope decode, which must find a Command/Ack frame; its opcode and payload are returned as they are
(R113). The errors' order is `60_exceptions.md` R124. -/
def execDecAck (s : State) : Host.Outcome State Fault Refusal :=
  withInput s fun bytes =>
    match envDecode bytes with
    | .noMatch => raise .frameMalformed .none s
    | .err code kind => raise code kind s
    | .target _ => raise .frameMalformed .target s
    | .cmdAck opcode payload => finishCmdAck opcode payload s

end Sys2Proof.Machine
end

