-- ==== Sys2Proof/Machine/Builders.lean ====
section
/-! DEFINITION. The Command Builder (`spec/41_command_builders.md`): one operation per protocol command. Each computes a wire
opcode (R80) and a payload and performs `BUILD` (R82); it reads only the operand registers its rule names (D36). -/

namespace Sys2Proof.Machine

/-- `BUILD` of the payload an operand selects, or the error where it selects none (R120, R122); a completion either way. -/
def buildSelected (err : StatusCode) (opc : Half) (payload : Option (List Byte)) (s : State) :
    Host.Outcome State Fault Refusal :=
  finish (if payload.isSome then .ok else err) .none
    (payload.elim Results.empty fun p => Results.empty.emit (cmdFrame opc p)) s

/-- BLD_ENABLE_CONFIG (R83). -/
def execBldEnableConfig (s : State) : Host.Outcome State Fault Refusal :=
  build opcEnableConfig [0x01#8, 0x00#8] s

/-- BLD_END_CONFIG (R84). -/
def execBldEndConfig (s : State) : Host.Outcome State Fault Refusal :=
  build Config.params.opcEndConfig [] s

/-- `P_RES_CODE[s]` (R2, R85); `none` for the selector 3, which selects nothing (`10_state.md` R24). -/
def resCode (p : Params) (sel : BitVec 2) : Option Byte :=
  if sel = 0#2 then some p.resCode0
  else if sel = 1#2 then some p.resCode1
  else if sel = 2#2 then some p.resCode2
  else none

/-- BLD_SET_RESOLUTION (R85): the resolution's byte and five reserved zero bytes. -/
def execBldSetResolution (s : State) : Host.Outcome State Fault Refusal :=
  withOperand s.args.argRes fun sel =>
    buildSelected .invalidOperand opcSetResolution
      ((resCode Config.params sel).map fun b => [b, 0x00#8, 0x00#8, 0x00#8, 0x00#8, 0x00#8]) s

/-- BLD_SET_BASIC_PARAMS (R86): min, max, duration, polarity, one reserved zero byte. -/
def execBldSetBasicParams (s : State) : Host.Outcome State Fault Refusal :=
  withOperand s.args.argMin fun lo =>
  withOperand s.args.argMax fun hi =>
  withOperand s.args.argDur fun dur =>
  withOperand s.args.argPol fun pol =>
    build Config.params.opcSetBasicParams ([lo, hi] ++ u16le dur ++ [pol.zeroExtend 8, 0x00#8]) s

/-- BLD_SET_MOTION_SENS (R87). -/
def execBldSetMotionSens (s : State) : Host.Outcome State Fault Refusal :=
  withOperand (gateBytes s) fun gates => build Config.params.opcSetMotionSens gates s

/-- BLD_SET_STATIC_SENS (R88). -/
def execBldSetStaticSens (s : State) : Host.Outcome State Fault Refusal :=
  withOperand (gateBytes s) fun gates => build Config.params.opcSetStaticSens gates s

/-- `P_BAUD_TABLE(v)`, `none` where `v` is not a key (R89). -/
def baudCode (p : Params) (v : BitVec 32) : Option Half := p.baudTable.lookup v

/-- BLD_SET_BAUD (R89): the payload is the code alone. -/
def execBldSetBaud (s : State) : Host.Outcome State Fault Refusal :=
  withOperand s.args.argBaud fun v =>
    buildSelected .unknownBaudRate Config.params.opcSetBaud ((baudCode Config.params v).map u16le) s

/-- BLD_BLUETOOTH (R90): both settings share one wire opcode (D34). -/
def execBldBluetooth (s : State) : Host.Outcome State Fault Refusal :=
  withOperand s.args.argOn fun on =>
    build Config.params.opcBluetooth (if on = 1#1 then Config.params.plBtOn else Config.params.plBtOff) s

/-- BLD_READ_MAC (R91). -/
def execBldReadMac (s : State) : Host.Outcome State Fault Refusal :=
  build Config.params.opcReadMac Config.params.plReadMac s

/-- BLD_LIGHT_SENSOR_MODE (R92): no operand, the whole payload is the parameter (D35). -/
def execBldLightSensorMode (s : State) : Host.Outcome State Fault Refusal :=
  build Config.params.opcLightSensorMode Config.params.plLightSensorMode s

/-- BLD_FACTORY_RESET (R93): producing the frame resets nothing in the block. -/
def execBldFactoryReset (s : State) : Host.Outcome State Fault Refusal :=
  build Config.params.opcFactoryReset Config.params.plFactoryReset s

/-- BLD_REBOOT (R94): the block itself is not reset. -/
def execBldReboot (s : State) : Host.Outcome State Fault Refusal :=
  build Config.params.opcReboot Config.params.plReboot s

/-- BLD_FIRMWARE_VERSION (R95). -/
def execBldFirmwareVersion (s : State) : Host.Outcome State Fault Refusal :=
  build opcFirmwareVersion Config.params.plFirmwareVersion s

/-- BLD_BGCORR_ENTER (R96). -/
def execBldBgcorrEnter (s : State) : Host.Outcome State Fault Refusal :=
  build Config.params.opcBgcorrEnter Config.params.plBgcorrEnter s

/-- BLD_BGCORR_READ (R97). -/
def execBldBgcorrRead (s : State) : Host.Outcome State Fault Refusal :=
  build Config.params.opcBgcorrRead Config.params.plBgcorrRead s

/-- BLD_READ_RESOLUTION (R98). PRESUMED by the spec, as the six below (log entry 11). -/
def execBldReadResolution (s : State) : Host.Outcome State Fault Refusal :=
  build Config.params.opcReadResolution Config.params.plReadResolution s

/-- BLD_READ_BASIC_PARAMS (R99). -/
def execBldReadBasicParams (s : State) : Host.Outcome State Fault Refusal :=
  build Config.params.opcReadBasicParams Config.params.plReadBasicParams s

/-- BLD_READ_MOTION_SENS (R100). -/
def execBldReadMotionSens (s : State) : Host.Outcome State Fault Refusal :=
  build Config.params.opcReadMotionSens Config.params.plReadMotionSens s

/-- BLD_READ_STATIC_SENS (R101). -/
def execBldReadStaticSens (s : State) : Host.Outcome State Fault Refusal :=
  build Config.params.opcReadStaticSens Config.params.plReadStaticSens s

/-- BLD_ENG_MODE_ON (R102): the block does not change how it decodes. -/
def execBldEngModeOn (s : State) : Host.Outcome State Fault Refusal :=
  build Config.params.opcEngModeOn Config.params.plEngModeOn s

/-- BLD_ENG_MODE_OFF (R103). -/
def execBldEngModeOff (s : State) : Host.Outcome State Fault Refusal :=
  build Config.params.opcEngModeOff Config.params.plEngModeOff s

/-- BLD_READ_LIGHT_SENSOR (R104). -/
def execBldReadLightSensor (s : State) : Host.Outcome State Fault Refusal :=
  build Config.params.opcReadLightSensor Config.params.plReadLightSensor s

end Sys2Proof.Machine
end

