-- ==== Sys2Proof/Machine/Target.lean ====
section
/-! DEFINITION. The Target-Data Decoder (`spec/42_target_decoder.md`): the intraframe decode and the operation DEC_TARGET. -/

namespace Sys2Proof.Machine

/-- `BasicTargetData` (R107). -/
structure BasicData where
  state : Byte
  mDist : Half
  mEn : Byte
  sDist : Half
  sEn : Byte
  deriving DecidableEq, Repr

/-- `EngineeringModeData` (R108). -/
structure EngData where
  b1 : Byte
  b2 : Byte
  mGate : Vector Byte 14
  sGate : Vector Byte 14
  light : Byte
  deriving DecidableEq, Repr

/-- What the intraframe decode returns (R106). -/
inductive IntraResult where
  | err (code : StatusCode)
  | ok (basic : BasicData) (eng : Option EngData) (calib : Byte)
  deriving DecidableEq, Repr

/-- `basic_decode(b)` (R107). -/
def basicDecode (b : List Byte) : BasicData :=
  { state := byteAt b 0, mDist := le16 (byteAt b 1) (byteAt b 2), mEn := byteAt b 3,
    sDist := le16 (byteAt b 4) (byteAt b 5), sEn := byteAt b 6 }

/-- `eng_decode(e)` (R108). -/
def engDecode (e : List Byte) : EngData :=
  { b1 := byteAt e 0, b2 := byteAt e 1, mGate := Vector.ofFn fun g => byteAt e (2 + g.val),
    sGate := Vector.ofFn fun g => byteAt e (16 + g.val), light := byteAt e 30 }

/-- The number of target bytes a datatype requires (`30_encoding.md` R65); `none` for an unknown datatype. -/
def targetByteCount (datatype : Byte) : Option Nat :=
  if datatype = 0x02#8 then some 7 else if datatype = 0x01#8 then some 38 else none

/-- `intra_decode(t)` (R106): shape, discriminator, count, state, in this order (`60_exceptions.md` R124, D14). -/
def intraDecode (t : List Byte) : IntraResult :=
  if t.length < 4 then .err .frameMalformed
  else if byteAt t 1 ≠ 0xAA#8 ∨ byteAt t (t.length - 2) ≠ 0x55#8 then .err .frameMalformed
  else
    match targetByteCount (byteAt t 0) with
    | none => .err .unknownDiscriminator
    | some need =>
      if t.length - 4 ≠ need then .err .frameMalformed
      else if 0x06 < (byteAt (slice t 2 (t.length - 2)) 0).toNat then .err .unknownTargetState
      else
        .ok (basicDecode (slice (slice t 2 (t.length - 2)) 0 7))
          (if byteAt t 0 = 0x01#8 then some (engDecode (slice (slice t 2 (t.length - 2)) 7 38)) else none)
          (byteAt t (t.length - 1))

/-- The registers a decoded report always writes (R109). -/
def basicResults (b : BasicData) (calib : Byte) : Results :=
  { Results.empty with
    tState := some b.state, tMDist := some b.mDist, tMEn := some b.mEn, tSDist := some b.sDist,
    tSEn := some b.sEn, tCalib := some calib, tEng := some 0#1 }

/-- The registers a decoded report writes: the engineering registers only if that data is present (R109, D39). -/
def targetResults (b : BasicData) (eng : Option EngData) (calib : Byte) : Results :=
  match eng with
  | none => basicResults b calib
  | some e =>
    { basicResults b calib with
      tEng := some 1#1, tB1 := some e.b1, tB2 := some e.b2, tLight := some e.light,
      tMGate := e.mGate.map some, tSGate := e.sGate.map some }

/-- DEC_TARGET (R109). -/
def execDecTarget (s : State) : Host.Outcome State Fault Refusal :=
  withInput s fun bytes =>
    match envDecode bytes with
    | .noMatch => raise .frameMalformed .none s
    | .err code kind => raise code kind s
    | .cmdAck _ _ => raise .frameMalformed .cmdAck s
    | .target intra =>
      match intraDecode intra with
      | .err code => raise code .target s
      | .ok basic eng calib => finish .ok .target (targetResults basic eng calib) s

end Sys2Proof.Machine
end

