-- ==== Sys2Proof/Machine/Dispatch.lean ====
section
/-! DEFINITION. One arm per operation: the whole effect of the operation on the block, from the inputs that stand in the state
(`spec/10_state.md` R43). -/

namespace Sys2Proof.Machine

def exec (i : Instr) (s : State) : Host.Outcome State Fault Refusal :=
  match i with
  | .decFrame => Sys2Proof.Machine.execDecFrame s
  | .decAck => Sys2Proof.Machine.execDecAck s
  | .decTarget => Sys2Proof.Machine.execDecTarget s
  | .encCmd => Sys2Proof.Machine.execEncCmd s
  | .bldEnableConfig => Sys2Proof.Machine.execBldEnableConfig s
  | .bldEndConfig => Sys2Proof.Machine.execBldEndConfig s
  | .bldSetResolution => Sys2Proof.Machine.execBldSetResolution s
  | .bldSetBasicParams => Sys2Proof.Machine.execBldSetBasicParams s
  | .bldSetMotionSens => Sys2Proof.Machine.execBldSetMotionSens s
  | .bldSetStaticSens => Sys2Proof.Machine.execBldSetStaticSens s
  | .bldSetBaud => Sys2Proof.Machine.execBldSetBaud s
  | .bldBluetooth => Sys2Proof.Machine.execBldBluetooth s
  | .bldReadMac => Sys2Proof.Machine.execBldReadMac s
  | .bldLightSensorMode => Sys2Proof.Machine.execBldLightSensorMode s
  | .bldFactoryReset => Sys2Proof.Machine.execBldFactoryReset s
  | .bldReboot => Sys2Proof.Machine.execBldReboot s
  | .bldFirmwareVersion => Sys2Proof.Machine.execBldFirmwareVersion s
  | .bldBgcorrEnter => Sys2Proof.Machine.execBldBgcorrEnter s
  | .bldBgcorrRead => Sys2Proof.Machine.execBldBgcorrRead s
  | .bldReadResolution => Sys2Proof.Machine.execBldReadResolution s
  | .bldReadBasicParams => Sys2Proof.Machine.execBldReadBasicParams s
  | .bldReadMotionSens => Sys2Proof.Machine.execBldReadMotionSens s
  | .bldReadStaticSens => Sys2Proof.Machine.execBldReadStaticSens s
  | .bldEngModeOn => Sys2Proof.Machine.execBldEngModeOn s
  | .bldEngModeOff => Sys2Proof.Machine.execBldEngModeOff s
  | .bldReadLightSensor => Sys2Proof.Machine.execBldReadLightSensor s

end Sys2Proof.Machine
end

