-- ==== Sys2Proof/WellFormed.lean ====
section
/-! DEFINITION. Which operations and host actions are well formed. An operation has no fields, so each is; a host action is
well formed when no cause 1 to 5 of `spec/70_reset_and_hazards.md` R136 applies to it, whatever the state. -/

namespace Sys2Proof

/-- Every operation is well formed: format OP8 has no fields (`30_encoding.md` R68). -/
def Instr.wf (_ : Instr) : Bool := true

/-- The value fits the register and the register's own limits (R136 items 3, 4 and 5). -/
def valueOk (p : Params) (r : RegName) (value : Nat) : Bool :=
  decide (value < 2 ^ regWidth r) &&
    (match r with
     | .ctrl => decide (value < 2)
     | .ilen => decide (value ≤ p.ibufCap)
     | _ => true)

/-- A host action that names an existing place, writes only what the host may write, and a value that fits (R136 items 1
to 5). -/
def HostAction.wf (p : Params) : HostAction → Bool
  | .write .reg n v =>
    match regAt n with
    | none => false
    | some r => decide (regAccess r ≠ .ro) && valueOk p r v
  | .write .ibuf n v => decide (n < p.ibufCap) && decide (v < 256)
  | .write .obuf _ _ => false
  | .read .reg n => (regAt n).isSome
  | .read .ibuf n => decide (n < p.ibufCap)
  | .read .obuf n => decide (n < p.obufCap)
  | .wait => true
  | .reset => true
  | .idle => true

end Sys2Proof
end

