-- ==== Sys2Proof/Machine/HostPort.lean ====
section
/-! DEFINITION. The host's side of the block: register and buffer accesses with their faults (`spec/10_state.md` R11 to R18,
`spec/20_memory.md` R48 to R50, `spec/70_reset_and_hazards.md` R136, R137), START (R15, R17), the reset input (R132) and the
host notation (`spec/30_encoding.md` R71, R72). -/

namespace Sys2Proof.Machine

/-- Put a value of the right width into an RW register; the other registers stay (R50). CTRL holds no state and the codec alone
writes RO registers, so there they change nothing. -/
def setReg (r : RegName) (v : Nat) (s : State) : State :=
  match r with
  | .op => { s with op := some (BitVec.ofNat 8 v) }
  | .ctrl => s
  | .status => s
  | .ilen => { s with ilen := BitVec.ofNat 16 v }
  | .olen => s
  | .rOpcode => s
  | .argOpcode => { s with args := { s.args with argOpcode := some (BitVec.ofNat 16 v) } }
  | .argRes => { s with args := { s.args with argRes := some (BitVec.ofNat 2 v) } }
  | .argMin => { s with args := { s.args with argMin := some (BitVec.ofNat 8 v) } }
  | .argMax => { s with args := { s.args with argMax := some (BitVec.ofNat 8 v) } }
  | .argDur => { s with args := { s.args with argDur := some (BitVec.ofNat 16 v) } }
  | .argPol => { s with args := { s.args with argPol := some (BitVec.ofNat 1 v) } }
  | .argBaud => { s with args := { s.args with argBaud := some (BitVec.ofNat 32 v) } }
  | .argOn => { s with args := { s.args with argOn := some (BitVec.ofNat 1 v) } }
  | .argGate g => { s with args := { s.args with argGate := s.args.argGate.set g.val (some (BitVec.ofNat 8 v)) g.isLt } }
  | .tState => s
  | .tMDist => s
  | .tMEn => s
  | .tSDist => s
  | .tSEn => s
  | .tEng => s
  | .tB1 => s
  | .tB2 => s
  | .tLight => s
  | .tCalib => s
  | .tMGate _ => s
  | .tSGate _ => s

/-- A START (R15, R17): an operation that would read something holding no value is the fault of R123, first of all causes
(R124); an unassigned OP reads no operand (R121). -/
def startOp (s : State) : Host.Outcome State Fault Refusal :=
  match s.op with
  | none => .fault .opNoValue
  | some w =>
    match decode [w] with
    | .error _ => .next (startEvent s)
    | .ok (i, _) =>
      match operandFault i s with
      | some f => .fault f
      | none => .next (startEvent s)

/-- A write of CTRL (R15): bit 0 starts the operation OP names, the other bits are reserved (R136 item 4). -/
def writeCtrl (v : Nat) (s : State) : Host.Outcome State Fault Refusal :=
  if 2 ≤ v then .fault .ctrlReserved else if v = 1 then startOp s else .next s

/-- A host write to a register (R12, R136, R137). Which fault is named where several apply: DESIGN CHOICE (log entry 9), safe. -/
def writeReg (r : RegName) (v : Nat) (s : State) : Host.Outcome State Fault Refusal :=
  if regAccess r = .ro then .fault .writeReadOnly
  else if s.busy then .fault .writeWhileBusy
  else if 2 ^ regWidth r ≤ v then .fault .valueTooWide
  else if r = .ctrl then writeCtrl v s
  else if r = .ilen ∧ Config.params.ibufCap < v then .fault .ilenTooLarge
  else .next (setReg r v s)

/-- A host write (R11): a register, a byte of IBUF (R22), or OBUF, which no host may write (R136 item 2). -/
def hostWrite (sp : Space) (n v : Nat) (s : State) : Host.Outcome State Fault Refusal :=
  match sp with
  | .reg =>
    match regAt n with
    | none => .fault .unassignedIndex
    | some r => writeReg r v s
  | .ibuf =>
    if Config.params.ibufCap ≤ n then .fault .unassignedIndex
    else if s.busy then .fault .writeWhileBusy
    else if 256 ≤ v then .fault .valueTooWide
    else .next { s with ibuf := s.ibuf.write n (BitVec.ofNat 8 v) }
  | .obuf => if Config.params.obufCap ≤ n then .fault .unassignedIndex else .fault .writeReadOnly

/-- What stands at a place of the host port: nothing there (`none`), or there with its value or with none (R11, R13). -/
def placeValue (sp : Space) (n : Nat) (s : State) : Option (Option Nat) :=
  match sp with
  | .reg => (regAt n).map fun r => readReg r s
  | .ibuf => if n < Config.params.ibufCap then some (held (s.ibuf.read n)) else none
  | .obuf => if n < Config.params.obufCap then some (held (s.res.obuf.read n)) else none

/-- The host has received a value. -/
def received (sp : Space) (n v : Nat) (s : State) : State :=
  { s with reads := s.reads ++ [{ space := sp, index := n, value := v }] }

/-- A host read (R11, R50): no side effect on any register or buffer; of something that holds no value it is a fault (R13). -/
def hostRead (sp : Space) (n : Nat) (s : State) : Host.Outcome State Fault Refusal :=
  match placeValue sp n s with
  | none => .fault .unassignedIndex
  | some none => .fault .readNoValue
  | some (some v) => .next (received sp n v s)

/-- One action of the host; `rest` is what it does after it. WAIT reads STATUS and stays until the value read has DONE = 1
(R72). -/
def hostAct (a : HostAction) (rest : List HostAction) (s : State) : Host.Outcome State Fault Refusal :=
  match a with
  | .write sp n v => hostWrite sp n v { s with host := rest }
  | .read sp n => hostRead sp n { s with host := rest }
  | .wait =>
    .next (received .reg (regIndex .status) s.status.toNat (if s.done then { s with host := rest } else s))
  | .reset => .next (resetEvent { s with host := rest })
  | .idle => .next { s with host := rest }

/-- The host's turn in a step: its next action, if it has one. -/
def hostTurn (s : State) : Host.Outcome State Fault Refusal :=
  match s.host with
  | [] => .next s
  | a :: rest => hostAct a rest s

/-- `W <reg>, <value>` (R71). -/
def actW (r : RegName) (v : Nat) : HostAction := .write .reg (regIndex r) v

/-- `R <reg>` (R71). -/
def actR (r : RegName) : HostAction := .read .reg (regIndex r)

/-- `WB IBUF[i], b0 … bk` (R71). -/
def actWB : Nat → List Byte → List HostAction
  | _, [] => []
  | i, b :: t => .write .ibuf i b.toNat :: actWB (i + 1) t

/-- `RB OBUF[i..j)` (R71). -/
def actRB (i j : Nat) : List HostAction := (List.range (j - i)).map fun k => .read .obuf (i + k)

/-- `GO <mnemonic>` (R72). -/
def actGo (i : Instr) : List HostAction := [actW .op (opcodeOf i).toNat, actW .ctrl 1]

/-- `CALL <mnemonic>` (R72). -/
def actCall (i : Instr) : List HostAction := actGo i ++ [.wait]

/-- `LOADIN b0 … bk` (R72). -/
def actLoadIn (bytes : List Byte) : List HostAction := actWB 0 bytes ++ [actW .ilen bytes.length]

end Sys2Proof.Machine
end

