-- ==== Sys2Proof/Machine/Codec.lean ====
section
/-! DEFINITION. The codec's own moves: the completion of an operation (`spec/10_state.md` R17), the steps before it
(`spec/70_reset_and_hazards.md` R141), and an operation placed as if its START had just been (for `withFetchWord`). -/

namespace Sys2Proof.Machine

/-- The completion of an operation whose code is not assigned (`60_exceptions.md` R121). -/
def unsupportedOp (s : State) : Host.Outcome State Fault Refusal := raise .unsupportedOperation .none s

/-- The completion step (R17): the operation OP names takes its whole effect. OP still holds what START read (R137). -/
def completeOp (s : State) : Host.Outcome State Fault Refusal :=
  match s.op with
  | none => .fault .opNoValue
  | some w =>
    match decode [w] with
    | .error _ => unsupportedOp s
    | .ok (i, _) => exec i s

/-- One step of the block and its host. While BUSY = 1 the codec passes the steps of its draw, and in each the host may act;
then comes the completion, the codec's alone. While BUSY = 0 only the host acts. DESIGN CHOICE (log entry 1), safe. -/
def machineStep (s : State) : Host.Outcome State Fault Refusal :=
  if s.busy then
    match s.left with
    | 0 => completeOp s
    | k + 1 => hostTurn { s with left := k }
  else hostTurn s

/-- The value 0 in a register that holds none. -/
def giveReg (s : State) (r : RegName) : State := if readReg r s = none then setReg r 0 s else s

/-- The value 0 in a byte of IBUF that holds none. -/
def giveByte (s : State) (k : Nat) : State :=
  if s.ibuf.read k = none then { s with ibuf := s.ibuf.write k 0x00#8 } else s

/-- Everything R135 asks the host to have written before a START of the operation: what holds a value keeps it. The value 0 is a
DESIGN CHOICE (log entry 8), safe. -/
def giveOperands (i : Instr) (s : State) : State :=
  let t := (operandRegs i).foldl giveReg s
  if readsInput i then (List.range s.ilen.toNat).foldl giveByte t else t

/-- What R135 asks for before a START of the code `w`; an unassigned code reads no operand (R121). -/
def giveInputs (w : Byte) (s : State) : State :=
  match decode [w] with
  | .error _ => s
  | .ok (i, _) => giveOperands i s

/-- The operation code `w` in OP, with what its START needs (R135), started, and no step left before its completion (log
entry 8). -/
def placeOp (w : Byte) (s : State) : State := { giveInputs w s with op := some w, status := statusBusy, left := 0 }

end Sys2Proof.Machine
end

