-- ==== Sys2Proof/Machine/Step.lean ====
section
/-! DEFINITION. One step of the machine, and an operation placed where the next step runs it. -/

namespace Sys2Proof.Machine

/-- One step of the block and its host (`10_state.md` R10, R17). -/
def step (s : State) : Host.Outcome State Fault Refusal := machineStep s

/-- `s` with the operation whose bits are `w` in OP and at its completion step, as after a START of it: OP holds the code,
STATUS says BUSY, no step of the latency draw is left, and what R135 asks the host to have written before that START holds a
value, its own where it has one and else 0 (log entry 8). Nothing else changes. -/
def State.withFetchWord (s : State) (nbits w : Nat) : State := placeOp (BitVec.ofNat 8 (w % 2 ^ nbits)) s

end Sys2Proof.Machine
end

