-- ==== Sys2Proof/Safety.lean ====
section
/-! DEFINITION. What claims are stated in: the wire formats written out byte by byte, the legal contents of the registers, the
invariant of the machine, the inputs an operation reads, and the end of a run. -/

namespace Sys2Proof.Machine

/-- A Command/Ack frame byte by byte (`30_encoding.md` R59). -/
def wireCmd (opcode : Half) (payload : List Byte) : List Byte :=
  [0xFD#8, 0xFC#8, 0xFB#8, 0xFA#8] ++
  [BitVec.ofNat 8 (payload.length + 2), BitVec.ofNat 8 ((payload.length + 2) / 256)] ++
  [BitVec.ofNat 8 opcode.toNat, BitVec.ofNat 8 (opcode.toNat / 256)] ++
  payload ++ [0x04#8, 0x03#8, 0x02#8, 0x01#8]

/-- A Target frame byte by byte (`30_encoding.md` R60). -/
def wireTarget (intra : List Byte) : List Byte :=
  [0xF4#8, 0xF3#8, 0xF2#8, 0xF1#8] ++
  [BitVec.ofNat 8 intra.length, BitVec.ofNat 8 (intra.length / 256)] ++
  intra ++ [0xF8#8, 0xF7#8, 0xF6#8, 0xF5#8]

/-- The Command/Ack magic pair around any bytes (R58, R74). -/
def betweenCmd (mid : List Byte) : List Byte :=
  [0xFD#8, 0xFC#8, 0xFB#8, 0xFA#8] ++ mid ++ [0x04#8, 0x03#8, 0x02#8, 0x01#8]

/-- The Target magic pair around any bytes (R58, R74). -/
def betweenTarget (mid : List Byte) : List Byte :=
  [0xF4#8, 0xF3#8, 0xF2#8, 0xF1#8] ++ mid ++ [0xF8#8, 0xF7#8, 0xF6#8, 0xF5#8]

/-- A basic intraframe byte by byte (R62): datatype, head marker, the 7 target bytes, tail marker, calibration byte. -/
def basicIntra (state mLo mHi mEn sLo sHi sEn calib : Byte) : List Byte :=
  [0x02#8, 0xAA#8, state, mLo, mHi, mEn, sLo, sHi, sEn, 0x55#8, calib]

/-- An extended intraframe byte by byte (R63): the 38 target bytes hold the basic 7, b1, b2, 14 moving and 14 stationary gates
and the light byte. -/
def extendedIntra (state mLo mHi mEn sLo sHi sEn b1 b2 : Byte) (mGate sGate : Vector Byte 14) (light calib : Byte) :
    List Byte :=
  [0x01#8, 0xAA#8, state, mLo, mHi, mEn, sLo, sHi, sEn, b1, b2] ++ mGate.toList ++ sGate.toList ++
  [light, 0x55#8, calib]

/-- OBUF holds a byte string of fewer than 65536 bytes, OLEN its length, and no other RO register but STATUS holds a value. -/
def emitted (bytes : List Byte) : Results :=
  { Results.empty with olen := some (BitVec.ofNat 16 bytes.length), obuf := Memory.ofBytes 0 bytes }

/-- The operation takes `s` to the same state with this STATUS and these results, and nothing else changed. -/
def Completes (i : Instr) (s : State) (status : Byte) (r : Results) : Prop :=
  exec i s = .next { s with status := status, res := r }

/-- The command of each builder: its wire opcode and payload (`30_encoding.md` section 5, R83 to R104); `none` for what is no
builder, for an operand that holds no value, and for the operands the builder ends with an error on. -/
def builderCommand (p : Params) (s : State) : Instr → Option (Half × List Byte)
  | .decFrame => none
  | .decAck => none
  | .decTarget => none
  | .encCmd => none
  | .bldEnableConfig => some (0x00FF#16, [0x01#8, 0x00#8])
  | .bldEndConfig => some (p.opcEndConfig, [])
  | .bldSetResolution =>
    match s.args.argRes with
    | some sel =>
      if sel = 0#2 then some (0x0001#16, [p.resCode0, 0#8, 0#8, 0#8, 0#8, 0#8])
      else if sel = 1#2 then some (0x0001#16, [p.resCode1, 0#8, 0#8, 0#8, 0#8, 0#8])
      else if sel = 2#2 then some (0x0001#16, [p.resCode2, 0#8, 0#8, 0#8, 0#8, 0#8])
      else none
    | none => none
  | .bldSetBasicParams =>
    match s.args.argMin, s.args.argMax, s.args.argDur, s.args.argPol with
    | some lo, some hi, some dur, some pol =>
      some (p.opcSetBasicParams,
        [lo, hi, BitVec.ofNat 8 dur.toNat, BitVec.ofNat 8 (dur.toNat / 256), BitVec.ofNat 8 pol.toNat, 0#8])
    | _, _, _, _ => none
  | .bldSetMotionSens => (allHeld s.args.argGate.toList).map fun gates => (p.opcSetMotionSens, gates)
  | .bldSetStaticSens => (allHeld s.args.argGate.toList).map fun gates => (p.opcSetStaticSens, gates)
  | .bldSetBaud =>
    match s.args.argBaud with
    | some v =>
      (p.baudTable.lookup v).map fun c =>
        (p.opcSetBaud, [BitVec.ofNat 8 c.toNat, BitVec.ofNat 8 (c.toNat / 256)])
    | none => none
  | .bldBluetooth =>
    match s.args.argOn with
    | some on => some (p.opcBluetooth, if on = 1#1 then p.plBtOn else p.plBtOff)
    | none => none
  | .bldReadMac => some (p.opcReadMac, p.plReadMac)
  | .bldLightSensorMode => some (p.opcLightSensorMode, p.plLightSensorMode)
  | .bldFactoryReset => some (p.opcFactoryReset, p.plFactoryReset)
  | .bldReboot => some (p.opcReboot, p.plReboot)
  | .bldFirmwareVersion => some (0x00A0#16, p.plFirmwareVersion)
  | .bldBgcorrEnter => some (p.opcBgcorrEnter, p.plBgcorrEnter)
  | .bldBgcorrRead => some (p.opcBgcorrRead, p.plBgcorrRead)
  | .bldReadResolution => some (p.opcReadResolution, p.plReadResolution)
  | .bldReadBasicParams => some (p.opcReadBasicParams, p.plReadBasicParams)
  | .bldReadMotionSens => some (p.opcReadMotionSens, p.plReadMotionSens)
  | .bldReadStaticSens => some (p.opcReadStaticSens, p.plReadStaticSens)
  | .bldEngModeOn => some (p.opcEngModeOn, p.plEngModeOn)
  | .bldEngModeOff => some (p.opcEngModeOff, p.plEngModeOff)
  | .bldReadLightSensor => some (p.opcReadLightSensor, p.plReadLightSensor)

/-- `IN` is this byte string: as many bytes as ILEN says, each in its place of IBUF (R21, R22). -/
def InputIs (s : State) (bytes : List Byte) : Prop :=
  bytes.length = s.ilen.toNat ∧ ∀ k, k < s.ilen.toNat → s.ibuf.read k = bytes[k]?

/-- It is the host's turn and its next action is `a`: no operation is in progress, or steps of its draw are still to pass. -/
def HostActs (s : State) (a : HostAction) (rest : List HostAction) : Prop :=
  s.host = a :: rest ∧ (s.busy = true → s.left ≠ 0)

/-- The codec's share of a step that is the host's turn: one step of the draw passes while an operation is in progress. -/
def State.ticked (s : State) : State := if s.busy then { s with left := s.left - 1 } else s

/-- The decode operations (R20). -/
def isDecoder (i : Instr) : Bool := decide (i = .decFrame) || decide (i = .decAck) || decide (i = .decTarget)

/-- `IN` of `t` is what `s` emitted: the host copied `OBUF[0..OLEN)` into IBUF and wrote ILEN (R139). -/
def CopiedToInput (s t : State) : Prop :=
  s.res.olen = some t.ilen ∧ ∀ k, k < t.ilen.toNat → t.ibuf.read k = s.res.obuf.read k

/-- Two states agree on everything an operation reads: its operand registers, and ILEN and `IBUF[0..ILEN)` if it reads them
(R43, `opcode_table.json` `fields`). -/
def SameInputs (i : Instr) (s t : State) : Prop :=
  (∀ r, r ∈ operandRegs i → readReg r s = readReg r t) ∧
  (readsInput i = true → s.ilen = t.ilen ∧ ∀ k, k < s.ilen.toNat → s.ibuf.read k = t.ibuf.read k)

/-- Everything an operation reads holds a value (R123, R135). -/
def OperandsHeld (i : Instr) (s : State) : Prop :=
  (∀ r, r ∈ operandRegs i → readReg r s ≠ none) ∧
  (readsInput i = true → ∀ k, k < s.ilen.toNat → s.ibuf.read k ≠ none)

/-- The values STATUS can hold: the reset value, BUSY, and the table of `95_test_vectors.md` section 0 (R16, R19, R20, R69). -/
def legalStatus : List Byte :=
  [0x00#8, 0x01#8, 0x02#8, 0x42#8, 0x82#8, 0x06#8, 0x0A#8, 0x4A#8, 0x8A#8, 0x4E#8, 0x8E#8, 0x92#8, 0x96#8, 0x1A#8,
   0x1E#8, 0x22#8]

/-- The engineering registers all hold a value (R38 to R40). -/
def Results.engHeld (r : Results) : Prop :=
  r.tB1 ≠ none ∧ r.tB2 ≠ none ∧ r.tLight ≠ none ∧ ∀ g : Fin 14, r.tMGate[g] ≠ none ∧ r.tSGate[g] ≠ none

/-- No engineering register holds a value (R38 to R40). -/
def Results.engAbsent (r : Results) : Prop :=
  r.tB1 = none ∧ r.tB2 = none ∧ r.tLight = none ∧ ∀ g : Fin 14, r.tMGate[g] = none ∧ r.tSGate[g] = none

/-- The result registers are consistent: OBUF holds exactly one emitted byte string, of at most `P_OBUF_CAP` bytes, or nothing,
and OLEN goes with it (R31, R32); T_STATE is a legal code (R34); the engineering registers hold values exactly when T_ENG = 1
(R37 to R40). -/
structure Results.Ok (r : Results) : Prop where
  emittedString : ∃ bytes : List Byte,
    r.obuf = Memory.ofBytes 0 bytes ∧ bytes.length ≤ Config.params.obufCap ∧
      (r.olen = some (olenOf bytes) ∨ (r.olen = none ∧ bytes = []))
  stateCode : ∀ v, r.tState = some v → v.toNat ≤ 6
  engineering : (r.tEng = some 1#1 ∧ r.engHeld) ∨ (r.tEng ≠ some 1#1 ∧ r.engAbsent)

/-- The invariant of the machine: what every step keeps. -/
structure State.Inv (s : State) : Prop where
  /-- STATUS is a legal value (R16, R19, R20) -/
  statusLegal : s.status ∈ legalStatus
  /-- IBUF is in canonical form and within its capacity (R22, R45) -/
  inputForm : s.ibuf.wf = true
  inputInside : ∀ a, s.ibuf.read a ≠ none → a < Config.params.ibufCap
  /-- ILEN is a legal value (R21) -/
  lengthLegal : s.ilen.toNat ≤ Config.params.ibufCap
  /-- the results are consistent -/
  resultsOk : s.res.Ok
  /-- no result before DONE = 1 (R18), and none with an error or NOT_RECOGNIZED (R114) -/
  hiddenUntilDone : s.done = false → s.res = Results.empty
  errorWithoutResults : s.code ≠ 0#4 → s.res = Results.empty
  /-- an operation in progress has an OP and, if it is assigned, all it reads (R54, R123, R137) -/
  busyReady : s.busy = true →
    ∃ w, s.op = some w ∧ ∀ i rest, decode [w] = .ok (i, rest) → OperandsHeld i s
  /-- no steps are left over while no operation is in progress (R17) -/
  idleLeft : s.busy = false → s.left = 0

/-- A run of the host's program has ended: no action is left and no operation is in progress (R144). -/
def State.runEnded (s : State) : Bool := s.host.isEmpty && !s.busy

/-- A safe step: the machine does not stop. -/
def State.SafeStep (s : State) : Prop := ∃ t, step s = .next t

end Sys2Proof.Machine
end

