-- ==== Sys2Proof/Certificates/Slice0/Obligations.lean ====
section
/-! DEFINITION. The statements for the provers, from the numbered rules of `spec/`. -/

open Sys2Proof Sys2Proof.Machine

/-- `30_encoding.md` R68: each of the 26 operation codes, and every other byte rejected by name. The rows 0x30 to 0x36 are the
spec's general knowledge (log entry 11). -/
def Obligations.OperationCodesAsTabled : Prop :=
  (decode [0x01#8] = .ok (.decFrame, []) ∧
   decode [0x02#8] = .ok (.decAck, []) ∧
   decode [0x03#8] = .ok (.decTarget, []) ∧
   decode [0x10#8] = .ok (.encCmd, [])) ∧
  (decode [0x20#8] = .ok (.bldEnableConfig, []) ∧
   decode [0x21#8] = .ok (.bldEndConfig, []) ∧
   decode [0x22#8] = .ok (.bldSetResolution, []) ∧
   decode [0x23#8] = .ok (.bldSetBasicParams, []) ∧
   decode [0x24#8] = .ok (.bldSetMotionSens, []) ∧
   decode [0x25#8] = .ok (.bldSetStaticSens, []) ∧
   decode [0x26#8] = .ok (.bldSetBaud, []) ∧
   decode [0x27#8] = .ok (.bldBluetooth, []) ∧
   decode [0x28#8] = .ok (.bldReadMac, []) ∧
   decode [0x29#8] = .ok (.bldLightSensorMode, []) ∧
   decode [0x2A#8] = .ok (.bldFactoryReset, []) ∧
   decode [0x2B#8] = .ok (.bldReboot, []) ∧
   decode [0x2C#8] = .ok (.bldFirmwareVersion, []) ∧
   decode [0x2D#8] = .ok (.bldBgcorrEnter, []) ∧
   decode [0x2E#8] = .ok (.bldBgcorrRead, [])) ∧
  (decode [0x30#8] = .ok (.bldReadResolution, []) ∧
   decode [0x31#8] = .ok (.bldReadBasicParams, []) ∧
   decode [0x32#8] = .ok (.bldReadMotionSens, []) ∧
   decode [0x33#8] = .ok (.bldReadStaticSens, []) ∧
   decode [0x34#8] = .ok (.bldEngModeOn, []) ∧
   decode [0x35#8] = .ok (.bldEngModeOff, []) ∧
   decode [0x36#8] = .ok (.bldReadLightSensor, [])) ∧
  (∀ b : Byte,
    b.toNat = 0x00 ∨ (0x04 ≤ b.toNat ∧ b.toNat ≤ 0x0F) ∨ (0x11 ≤ b.toNat ∧ b.toNat ≤ 0x1F) ∨ b.toNat = 0x2F ∨
      0x37 ≤ b.toNat →
    decode [b] = .error (.unassignedOp b)) ∧
  ∀ b : Byte, (∀ e, decode [b] ≠ .error e) →
    b.toNat = 0x01 ∨ b.toNat = 0x02 ∨ b.toNat = 0x03 ∨ b.toNat = 0x10 ∨ (0x20 ≤ b.toNat ∧ b.toNat ≤ 0x2E) ∨
      (0x30 ≤ b.toNat ∧ b.toNat ≤ 0x36)

/-- `30_encoding.md` R68: decoding what `encode` writes gives the operation back and leaves the rest, and only that byte
decodes to it. -/
def Obligations.DecodeInvertsEncode : Prop :=
  (∀ (i : Instr) (rest : List Byte), decode (encode i ++ rest) = .ok (i, rest)) ∧
  ∀ (b : Byte) (rest rest' : List Byte) (i : Instr), decode (b :: rest) = .ok (i, rest') → encode i = [b] ∧ rest' = rest

/-- `10_state.md` R12: the assigned indices, the register at each, its width and its access, and no register twice. -/
def Obligations.RegisterMapAsTabled : Prop :=
  (∀ n : Nat, regAt n ≠ none ↔
    n ≤ 0x005 ∨ (0x010 ≤ n ∧ n ≤ 0x017) ∨ (0x020 ≤ n ∧ n ≤ 0x02D) ∨ (0x041 ≤ n ∧ n ≤ 0x04A) ∨
      (0x050 ≤ n ∧ n ≤ 0x05D) ∨ (0x060 ≤ n ∧ n ≤ 0x06D)) ∧
  (∀ r : RegName, regAt (regIndex r) = some r) ∧
  (∀ (n : Nat) (r : RegName), regAt n = some r → regIndex r = n) ∧
  [RegName.op, .ctrl, .status, .ilen, .olen, .rOpcode].map regIndex = [0x000, 0x001, 0x002, 0x003, 0x004, 0x005] ∧
  [RegName.argOpcode, .argRes, .argMin, .argMax, .argDur, .argPol, .argBaud, .argOn].map regIndex =
    [0x010, 0x011, 0x012, 0x013, 0x014, 0x015, 0x016, 0x017] ∧
  [RegName.tState, .tMDist, .tMEn, .tSDist, .tSEn, .tEng, .tB1, .tB2, .tLight, .tCalib].map regIndex =
    [0x041, 0x042, 0x043, 0x044, 0x045, 0x046, 0x047, 0x048, 0x049, 0x04A] ∧
  (∀ g : Fin 14, regAt (0x020 + g.val) = some (.argGate g) ∧ regAt (0x050 + g.val) = some (.tMGate g) ∧
    regAt (0x060 + g.val) = some (.tSGate g)) ∧
  (∀ r : RegName, regWidth r =
    if r = .argBaud then 32
    else if r ∈ [.ilen, .olen, .rOpcode, .argOpcode, .argDur, .tMDist, .tSDist] then 16
    else if r = .argRes then 2
    else if r ∈ [.argPol, .argOn, .tEng] then 1
    else 8) ∧
  ∀ r : RegName, (regAccess r = .ro ↔ r = .status ∨ r = .olen ∨ r = .rOpcode ∨ 0x041 ≤ regIndex r) ∧
    (regAccess r = .w ↔ r = .ctrl)

/-- `20_memory.md` R46: a wire field's two bytes, low byte first, are its value, in both directions. -/
def Obligations.WireIntegersAreLittleEndian : Prop :=
  (∀ lo hi : Byte, (le16 lo hi).toNat = lo.toNat + 256 * hi.toNat) ∧
  (∀ v : Half, u16le v = [BitVec.ofNat 8 v.toNat, BitVec.ofNat 8 (v.toNat / 256)]) ∧
  ∀ v : Half, le16 (byteAt (u16le v) 0) (byteAt (u16le v) 1) = v

/-- `10_state.md` R41, `00_scope.md` section 5: the calibration byte's integer value. The two's-complement reading is the spec's
own general knowledge (log entry 14). -/
def Obligations.CalibrationByteIsSigned : Prop :=
  ∀ b : Byte, sext8 b = if b.toNat < 128 then (b.toNat : Int) else (b.toNat : Int) - 256

/-- `20_memory.md` R50, R53: a buffer write is read back and leaves every other byte; and it keeps the model's canonical form. -/
def Obligations.BufferWriteReadsBack : Prop :=
  ∀ (m : Memory) (k : Nat) (v : Byte),
    (m.write k v).read k = some v ∧ (∀ a, a ≠ k → (m.write k v).read a = m.read a) ∧
      (m.wf = true → (m.write k v).wf = true)

/-- `10_state.md` R32: an emitted byte string stands in OBUF from index 0, byte for byte, and nowhere else. -/
def Obligations.BufferHoldsExactlyTheEmittedBytes : Prop :=
  ∀ bytes : List Byte, (Memory.ofBytes 0 bytes).wf = true ∧ ∀ a, (Memory.ofBytes 0 bytes).read a = bytes[a]?

/-- `10_state.md` R17, R56: the completion step of an assigned operation is the operation's meaning, and nothing around it. -/
def Obligations.CompletionStepRunsTheOperation : Prop :=
  ∀ (s : State) (w : Byte) (i : Instr) (rest : List Byte),
    s.busy = true → s.left = 0 → s.op = some w → decode [w] = .ok (i, rest) → step s = exec i s

/-- An operation placed by its code is run by the very next step (log entry 8): placing gives it the value 0 in each operand
register it reads and each byte of `IN` it reads that hold none (`70_reset_and_hazards.md` R135), writes OP, STATUS and the steps
left, and leaves the rest. -/
def Obligations.PlacedWordRunsNext : Prop :=
  ∀ (s : State) (i : Instr), ∃ t, s.withFetchWord 8 (opcodeOf i).toNat = t ∧ step t = exec i t ∧ OperandsHeld i t ∧
    t = { s with op := some (opcodeOf i), status := 0x01#8, left := 0, args := t.args, ibuf := t.ibuf } ∧
    (∀ r, r ≠ .op → r ≠ .status →
      readReg r t = if r ∈ operandRegs i ∧ readReg r s = none then some 0 else readReg r s) ∧
    (∀ a, t.ibuf.read a =
      if readsInput i = true ∧ a < s.ilen.toNat ∧ s.ibuf.read a = none then some 0x00#8 else s.ibuf.read a) ∧
    (OperandsHeld i s → t = { s with op := some (opcodeOf i), status := 0x01#8, left := 0 })

/-- `60_exceptions.md` R121: an unassigned code reads no operand and ends with UNSUPPORTED_OPERATION, KIND = NONE, and nothing
else written. That it ends in a completion step after its START is the model's reading (log entry 6). -/
def Obligations.UnassignedCodeEndsUnsupported : Prop :=
  ∀ (s : State) (w : Byte), s.op = some w → decode [w] = .error (.unassignedOp w) →
    (∀ rest, HostActs s (.write .reg 0x001 1) rest → s.busy = false →
      step s = .next (startEvent { s with host := rest })) ∧
    (s.busy = true → s.left = 0 → step s = .next { s with status := 0x1E#8, res := Results.empty })

/-- `10_state.md` R17: before the completion step, a step without a host action only uses up the latency draw. -/
def Obligations.BusyStepsOnlyCountDown : Prop :=
  ∀ (s : State) (k : Nat), s.busy = true → s.left = k + 1 →
    (s.host = [] → step s = .next { s with left := k }) ∧
    (∀ rest, s.host = .idle :: rest → step s = .next { s with left := k, host := rest })

/-- `70_reset_and_hazards.md` R144: once a run has ended, nothing happens any more. -/
def Obligations.EndedRunStaysAsItIs : Prop :=
  ∀ s : State, s.host = [] → s.busy = false → s.runEnded = true ∧ step s = .next s

/-- `70_reset_and_hazards.md` R142, `30_encoding.md` R72: a host that polls with WAIT sees the operation complete after the
draw's finite number of steps, whatever the draw, with the outcome of the operation on the inputs in place. That a step is a
tick of the draw and one poll, that WAIT is one action that stays, and the record of the polls are the model's choices (log
entries 1, 2, 12, 15). -/
def Obligations.PollingHostSeesCompletion : Prop :=
  ∀ (s : State) (w : Byte) (i : Instr) (rest : List Byte) (acts : List HostAction),
    s.status = 0x01#8 → s.op = some w → decode [w] = .ok (i, rest) → OperandsHeld i s → s.host = .wait :: acts →
    ∃ t,
      exec i { s with left := 0, reads := s.reads ++ List.replicate s.left ⟨.reg, 0x002, 0x01⟩ } = .next t ∧
      t.done = true ∧ t.busy = false ∧
      Host.Core.run Sys2Proof.core (s.left + 1) s = .next t ∧
      Host.Core.run Sys2Proof.core (s.left + 2) s =
        .next { t with host := acts, reads := t.reads ++ [⟨.reg, 0x002, t.status.toNat⟩] }

/-- `70_reset_and_hazards.md` R142: in every state of the invariant, the completion step of an operation in progress does
complete it: the codec never hangs and never stops there. -/
def Obligations.ReadyOperationAlwaysCompletes : Prop :=
  ∀ s : State, s.Inv → s.busy = true → s.left = 0 → ∃ t, step s = .next t ∧ t.busy = false ∧ t.done = true

/-- `10_state.md` R15, R17: CTRL. A write of 1 while no operation is in progress is a START if OP and all it reads hold values;
a write of 0 has no effect; any of the bits 7:1 is a host fault; a read gives 0x00. The draw a START takes is the model's form of
the latency (DESIGN CHOICE, log entry 2), and the record of the read is its own (log entry 12). -/
def Obligations.ControlRegisterStartsOperations : Prop :=
  (∀ (s : State) (rest : List HostAction) (w : Byte), s.busy = false → s.host = .write .reg 0x001 1 :: rest →
    s.op = some w → (∀ i r, decode [w] = .ok (i, r) → OperandsHeld i s) →
    ∃ t, step s = .next t ∧ t.status = 0x01#8 ∧ t.res = Results.empty ∧ t.left = Config.latency s.draws ∧
      t.draws = s.draws + 1 ∧ t.op = s.op ∧ t.ilen = s.ilen ∧ t.args = s.args ∧ t.ibuf = s.ibuf ∧ t.host = rest ∧
      t.reads = s.reads) ∧
  (∀ (s : State) (rest : List HostAction), s.busy = false → s.host = .write .reg 0x001 0 :: rest →
    step s = .next { s with host := rest }) ∧
  (∀ (s : State) (rest : List HostAction) (v : Nat), s.busy = false → s.host = .write .reg 0x001 v :: rest →
    2 ≤ v → ∃ f, step s = .fault f) ∧
  ∀ (s : State) (rest : List HostAction), s.busy = false → s.host = .read .reg 0x001 :: rest →
    step s = .next { s with host := rest, reads := s.reads ++ [⟨.reg, 0x001, 0⟩] }

/-- `60_exceptions.md` R123, `10_state.md` R13: a START whose OP, or whose operation's operands, hold no value is a fault. -/
def Obligations.StartWithoutOperandsFaults : Prop :=
  ∀ (s : State) (rest : List HostAction), s.busy = false → s.host = .write .reg 0x001 1 :: rest →
    (s.op = none → step s = .fault .opNoValue) ∧
    ∀ w i r, s.op = some w → decode [w] = .ok (i, r) → ¬ OperandsHeld i s →
      step s = .fault .operandNoValue ∨ step s = .fault .inputNoValue

/-- `20_memory.md` R50, `10_state.md` R13: a host read returns the whole value that stands at its place and changes no register
and no buffer; where no value stands, it is a fault. That one step of the draw passes in the same step while BUSY = 1 is the
model's DESIGN CHOICE (log entry 1, `State.ticked`), and so is the record of the value in `reads` (log entry 12). -/
def Obligations.HostReadsHaveNoSideEffect : Prop :=
  ∀ (s : State) (rest : List HostAction) (n : Nat),
    (∀ r v, HostActs s (.read .reg n) rest → regAt n = some r → readReg r s = some v →
      step s = .next { s.ticked with host := rest, reads := s.reads ++ [⟨.reg, n, v⟩] }) ∧
    (∀ r, HostActs s (.read .reg n) rest → regAt n = some r → readReg r s = none → step s = .fault .readNoValue) ∧
    (∀ b, HostActs s (.read .ibuf n) rest → n < Config.params.ibufCap → s.ibuf.read n = some b →
      step s = .next { s.ticked with host := rest, reads := s.reads ++ [⟨.ibuf, n, b.toNat⟩] }) ∧
    (HostActs s (.read .ibuf n) rest → n < Config.params.ibufCap → s.ibuf.read n = none →
      step s = .fault .readNoValue) ∧
    (∀ b, HostActs s (.read .obuf n) rest → n < Config.params.obufCap → s.res.obuf.read n = some b →
      step s = .next { s.ticked with host := rest, reads := s.reads ++ [⟨.obuf, n, b.toNat⟩] }) ∧
    (HostActs s (.read .obuf n) rest → n < Config.params.obufCap → s.res.obuf.read n = none →
      step s = .fault .readNoValue)

/-- `20_memory.md` R50: a register write replaces that register whole and has no side effect beyond it (CTRL apart). -/
def Obligations.HostWritesOneRegister : Prop :=
  ∀ (s : State) (rest : List HostAction) (n v : Nat) (r : RegName),
    s.busy = false → s.host = .write .reg n v :: rest → regAt n = some r → regAccess r = .rw → v < 2 ^ regWidth r →
    (r = .ilen → v ≤ Config.params.ibufCap) →
    ∃ t, step s = .next t ∧ readReg r t = some v ∧ (∀ r', r' ≠ r → readReg r' t = readReg r' s) ∧
      t.ibuf = s.ibuf ∧ t.res = s.res ∧ t.left = s.left ∧ t.draws = s.draws ∧ t.host = rest ∧ t.reads = s.reads

/-- `20_memory.md` R50, `10_state.md` R22: a write of IBUF replaces one byte and nothing else. -/
def Obligations.HostWritesOneInputByte : Prop :=
  ∀ (s : State) (rest : List HostAction) (n v : Nat),
    s.busy = false → s.host = .write .ibuf n v :: rest → n < Config.params.ibufCap → v < 256 →
    ∃ m : Memory, step s = .next { s with host := rest, ibuf := m } ∧
      m.read n = some (BitVec.ofNat 8 v) ∧ ∀ a, a ≠ n → m.read a = s.ibuf.read a

/-- `70_reset_and_hazards.md` R136: each of the listed host actions is a host fault, and the machine stops. -/
def Obligations.HostFaultsStopTheMachine : Prop :=
  ∀ (s : State) (rest : List HostAction) (sp : Space) (n v : Nat),
    -- item 1: an index outside its space
    ((sp = .reg ∧ regAt n = none) ∨ (sp = .ibuf ∧ Config.params.ibufCap ≤ n) ∨ (sp = .obuf ∧ Config.params.obufCap ≤ n) →
      (HostActs s (.read sp n) rest → ∃ f, step s = .fault f) ∧
      (HostActs s (.write sp n v) rest → ∃ f, step s = .fault f)) ∧
    -- item 2: a write to an RO register or to OBUF
    ((∃ r, sp = .reg ∧ regAt n = some r ∧ regAccess r = .ro) ∨ sp = .obuf →
      HostActs s (.write sp n v) rest → ∃ f, step s = .fault f) ∧
    -- item 3: a value that does not fit
    ((∃ r, sp = .reg ∧ regAt n = some r ∧ 2 ^ regWidth r ≤ v) ∨ (sp = .ibuf ∧ 256 ≤ v) →
      HostActs s (.write sp n v) rest → ∃ f, step s = .fault f) ∧
    -- item 4: a reserved bit of CTRL
    (HostActs s (.write .reg 0x001 v) rest → v / 2 % 128 ≠ 0 → ∃ f, step s = .fault f) ∧
    -- item 5: ILEN above the capacity
    (HostActs s (.write .reg 0x003 v) rest → Config.params.ibufCap < v → ∃ f, step s = .fault f) ∧
    -- item 6: a write of an input while an operation is in progress (R137)
    ((∃ r, sp = .reg ∧ regAt n = some r ∧ regAccess r ≠ .ro) ∨ sp = .ibuf →
      HostActs s (.write sp n v) rest → s.busy = true → ∃ f, step s = .fault f)

/-- `70_reset_and_hazards.md` R137: while BUSY = 1, writes of inputs are host faults; STATUS reads BUSY = 1, DONE = 0, and every
other RO register holds no value. -/
def Obligations.BusyBlockKeepsItsInputs : Prop :=
  ∀ s : State, s.Inv → s.busy = true →
    (∀ (rest : List HostAction) (n v : Nat) (r : RegName), HostActs s (.write .reg n v) rest → regAt n = some r →
      (r = .op ∨ r = .ctrl ∨ r = .ilen ∨ regAccess r = .rw) → ∃ f, step s = .fault f) ∧
    (∀ (rest : List HostAction) (n v : Nat), HostActs s (.write .ibuf n v) rest → ∃ f, step s = .fault f) ∧
    readReg .status s = some 0x01 ∧
    ∀ r, regAccess r = .ro → r ≠ .status → readReg r s = none

/-- `10_state.md` R18: while DONE = 0, a host read of an RO register other than STATUS reads a register that holds no value. -/
def Obligations.ResultsHiddenUntilDone : Prop :=
  ∀ (s : State) (rest : List HostAction) (r : RegName), s.Inv → s.done = false → regAccess r = .ro → r ≠ .status →
    readReg r s = none ∧ (HostActs s (.read .reg (regIndex r)) rest → step s = .fault .readNoValue)

/-- `70_reset_and_hazards.md` R132: the reset input, in any state, abandons any operation in progress and gives every register
and buffer byte its reset value. The host's own program and the count of draws are not the block's. -/
def Obligations.ResetInputAtAnyTime : Prop :=
  ∀ (s : State) (rest : List HostAction), HostActs s .reset rest →
    ∃ t, step s = .next t ∧ t.busy = false ∧ (∀ r, readReg r t = readReg r State.reset) ∧
      (∀ a, t.ibuf.read a = none ∧ t.res.obuf.read a = none) ∧ t.left = 0 ∧ t.host = rest ∧ t.reads = s.reads ∧
      t.draws = s.draws

/-- `70_reset_and_hazards.md` R133: what reset leaves. -/
def Obligations.ResetLeavesTheTabledValues : Prop :=
  readReg .status State.reset = some 0x00 ∧ readReg .ilen State.reset = some 0x0000 ∧
  readReg .ctrl State.reset = some 0x00 ∧
  (∀ r, r ≠ .status → r ≠ .ilen → r ≠ .ctrl → readReg r State.reset = none) ∧
  ∀ a, State.reset.ibuf.read a = none ∧ State.reset.res.obuf.read a = none

/-- `30_encoding.md` R72: WAIT reads STATUS and is over when the value read has DONE = 1, else it reads again, whether an
operation is in progress or not and whatever its code. That WAIT is one action that polls once a step is the model's DESIGN
CHOICE (log entry 15), as are the tick of the draw in that step (log entry 1) and the record of the poll (log entry 12). -/
def Obligations.WaitPollsStatus : Prop :=
  ∀ (s : State) (rest : List HostAction), HostActs s .wait rest →
    step s = .next
      { s.ticked with
        host := (if s.done = true then rest else .wait :: rest)
        reads := s.reads ++ [⟨.reg, 0x002, s.status.toNat⟩] }

/-- `70_reset_and_hazards.md` R139, R140: results change at no step but a START, a completion and a reset: a host that reads and
writes inputs keeps them. -/
def Obligations.ResultsLiveUntilTheNextStart : Prop :=
  ∀ s t : State, step s = .next t → s.busy = false → t.busy = false → (∀ rest, s.host ≠ .reset :: rest) →
    t.res = s.res ∧ t.status = s.status

/-- `40_envelope.md` R74 to R76, R79: DEC_FRAME, by what IN is. -/
def Obligations.DecFrameOutcome : Prop :=
  ∀ s : State,
    (∀ bytes, InputIs s bytes → (∀ m, bytes ≠ betweenCmd m) → (∀ m, bytes ≠ betweenTarget m) →
      Completes .decFrame s 0x06#8 Results.empty) ∧
    (∀ m, InputIs s (betweenCmd m) → m.length < 4 → Completes .decFrame s 0x4A#8 Results.empty) ∧
    (∀ m, InputIs s (betweenTarget m) → m.length < 2 → Completes .decFrame s 0x8A#8 Results.empty) ∧
    (∀ l0 l1 o0 o1 p, InputIs s (betweenCmd ([l0, l1, o0, o1] ++ p)) →
      if l0.toNat + 256 * l1.toNat = p.length + 2 then
        Completes .decFrame s 0x42#8 { emitted p with rOpcode := some (BitVec.ofNat 16 (o0.toNat + 256 * o1.toNat)) }
      else Completes .decFrame s 0x4E#8 Results.empty) ∧
    ∀ l0 l1 t, InputIs s (betweenTarget ([l0, l1] ++ t)) →
      if l0.toNat + 256 * l1.toNat = t.length then Completes .decFrame s 0x82#8 (emitted t)
      else Completes .decFrame s 0x8E#8 Results.empty

/-- `43_ack_decoder.md` R112: DEC_ACK, by what IN is. -/
def Obligations.DecAckOutcome : Prop :=
  ∀ s : State,
    (∀ bytes, InputIs s bytes → (∀ m, bytes ≠ betweenCmd m) → (∀ m, bytes ≠ betweenTarget m) →
      Completes .decAck s 0x0A#8 Results.empty) ∧
    (∀ m, InputIs s (betweenCmd m) → m.length < 4 → Completes .decAck s 0x4A#8 Results.empty) ∧
    (∀ m, InputIs s (betweenTarget m) → m.length < 2 → Completes .decAck s 0x8A#8 Results.empty) ∧
    (∀ l0 l1 o0 o1 p, InputIs s (betweenCmd ([l0, l1, o0, o1] ++ p)) →
      if l0.toNat + 256 * l1.toNat = p.length + 2 then
        Completes .decAck s 0x42#8 { emitted p with rOpcode := some (BitVec.ofNat 16 (o0.toNat + 256 * o1.toNat)) }
      else Completes .decAck s 0x4E#8 Results.empty) ∧
    ∀ l0 l1 t, InputIs s (betweenTarget ([l0, l1] ++ t)) →
      if l0.toNat + 256 * l1.toNat = t.length then Completes .decAck s 0x8A#8 Results.empty
      else Completes .decAck s 0x8E#8 Results.empty

/-- `42_target_decoder.md` R109, `60_exceptions.md` R124 steps 3 and 4: DEC_TARGET on what is no well-formed Target frame. -/
def Obligations.DecTargetEnvelopeErrors : Prop :=
  ∀ s : State,
    (∀ bytes, InputIs s bytes → (∀ m, bytes ≠ betweenCmd m) → (∀ m, bytes ≠ betweenTarget m) →
      Completes .decTarget s 0x0A#8 Results.empty) ∧
    (∀ m, InputIs s (betweenCmd m) → m.length < 4 → Completes .decTarget s 0x4A#8 Results.empty) ∧
    (∀ m, InputIs s (betweenTarget m) → m.length < 2 → Completes .decTarget s 0x8A#8 Results.empty) ∧
    (∀ l0 l1 o0 o1 p, InputIs s (betweenCmd ([l0, l1, o0, o1] ++ p)) →
      if l0.toNat + 256 * l1.toNat = p.length + 2 then Completes .decTarget s 0x4A#8 Results.empty
      else Completes .decTarget s 0x4E#8 Results.empty) ∧
    ∀ l0 l1 t, InputIs s (betweenTarget ([l0, l1] ++ t)) → l0.toNat + 256 * l1.toNat ≠ t.length →
      Completes .decTarget s 0x8E#8 Results.empty

/-- `42_target_decoder.md` R106 and R107, `30_encoding.md` R62: a basic report. -/
def Obligations.DecTargetBasicReport : Prop :=
  ∀ (s : State) (st mLo mHi mEn sLo sHi sEn calib : Byte), st.toNat ≤ 6 →
    InputIs s (wireTarget (basicIntra st mLo mHi mEn sLo sHi sEn calib)) →
    Completes .decTarget s 0x82#8
      { Results.empty with
        tState := some st, tMDist := some (BitVec.ofNat 16 (mLo.toNat + 256 * mHi.toNat)), tMEn := some mEn,
        tSDist := some (BitVec.ofNat 16 (sLo.toNat + 256 * sHi.toNat)), tSEn := some sEn, tEng := some 0#1,
        tCalib := some calib }

/-- `42_target_decoder.md` R106 to R108, `30_encoding.md` R63: an extended report. -/
def Obligations.DecTargetExtendedReport : Prop :=
  ∀ (s : State) (st mLo mHi mEn sLo sHi sEn b1 b2 : Byte) (mg sg : Vector Byte 14) (light calib : Byte),
    st.toNat ≤ 6 →
    InputIs s (wireTarget (extendedIntra st mLo mHi mEn sLo sHi sEn b1 b2 mg sg light calib)) →
    ∃ gm gs : Vector (Option Byte) 14,
      (∀ g : Fin 14, gm[g] = some mg[g] ∧ gs[g] = some sg[g]) ∧
      Completes .decTarget s 0x82#8
        { Results.empty with
          tState := some st, tMDist := some (BitVec.ofNat 16 (mLo.toNat + 256 * mHi.toNat)), tMEn := some mEn,
          tSDist := some (BitVec.ofNat 16 (sLo.toNat + 256 * sHi.toNat)), tSEn := some sEn, tEng := some 1#1,
          tB1 := some b1, tB2 := some b2, tLight := some light, tCalib := some calib, tMGate := gm, tSGate := gs }

/-- `42_target_decoder.md` R106, `60_exceptions.md` R124 step 5: the errors of an intraframe, in their order: shape,
discriminator, target-byte count, state byte. -/
def Obligations.DecTargetIntraframeErrors : Prop :=
  ∀ s : State,
    (∀ t, InputIs s (wireTarget t) → (∀ d tb c, t ≠ [d, 0xAA#8] ++ tb ++ [0x55#8, c]) →
      Completes .decTarget s 0x8A#8 Results.empty) ∧
    (∀ d tb c, InputIs s (wireTarget ([d, 0xAA#8] ++ tb ++ [0x55#8, c])) → d ≠ 0x02#8 → d ≠ 0x01#8 →
      Completes .decTarget s 0x92#8 Results.empty) ∧
    (∀ d tb c, InputIs s (wireTarget ([d, 0xAA#8] ++ tb ++ [0x55#8, c])) →
      (d = 0x02#8 ∧ tb.length ≠ 7) ∨ (d = 0x01#8 ∧ tb.length ≠ 38) →
      Completes .decTarget s 0x8A#8 Results.empty) ∧
    ∀ d st tb c, InputIs s (wireTarget ([d, 0xAA#8] ++ (st :: tb) ++ [0x55#8, c])) →
      (d = 0x02#8 ∧ tb.length = 6) ∨ (d = 0x01#8 ∧ tb.length = 37) → 7 ≤ st.toNat →
      Completes .decTarget s 0x96#8 Results.empty

/-- `42_target_decoder.md` R110: the discriminator decides whether engineering data is present, or it is unknown. -/
def Obligations.DiscriminatorIsExhaustive : Prop :=
  ∀ (s t : State) (d : Byte) (tb : List Byte) (c : Byte),
    InputIs s (wireTarget ([d, 0xAA#8] ++ tb ++ [0x55#8, c])) → exec .decTarget s = .next t →
    (d = 0x01#8 → t.code = 0#4 → t.res.tEng = some 1#1) ∧
    (d = 0x02#8 → t.code = 0#4 → t.res.tEng = some 0#1) ∧
    (d ≠ 0x01#8 → d ≠ 0x02#8 → t.code = 4#4)

/-- `42_target_decoder.md` R111: DEC_TARGET succeeds exactly on well-formed basic and extended Target frames with a legal state
byte. -/
def Obligations.DecTargetSucceedsExactlyOnReports : Prop :=
  ∀ (s : State) (bytes : List Byte), InputIs s bytes →
    ((∃ t, exec .decTarget s = .next t ∧ t.code = 0#4) ↔
      (∃ st mLo mHi mEn sLo sHi sEn calib : Byte, st.toNat ≤ 6 ∧
        bytes = wireTarget (basicIntra st mLo mHi mEn sLo sHi sEn calib)) ∨
      ∃ (st mLo mHi mEn sLo sHi sEn b1 b2 : Byte) (mg sg : Vector Byte 14) (light calib : Byte), st.toNat ≤ 6 ∧
        bytes = wireTarget (extendedIntra st mLo mHi mEn sLo sHi sEn b1 b2 mg sg light calib))

/-- `40_envelope.md` R77: ENC_CMD, for every payload whose frame's length OLEN can hold. -/
def Obligations.EncCmdOutcome : Prop :=
  ∀ (s : State) (c : Half) (p : List Byte), s.args.argOpcode = some c → InputIs s p → p.length < 65524 →
    Completes .encCmd s 0x02#8 (emitted (wireCmd c p)) ∧
      (p.length ≤ Config.params.ibufCap → (wireCmd c p).length ≤ Config.params.obufCap)

/-- `40_envelope.md` R77: ENC_CMD on a payload whose frame has 65536 bytes or more: OBUF holds the frame, and OLEN some value
that the spec does not give (log entry 5). -/
def Obligations.EncCmdOfTheLongestPayloads : Prop :=
  ∀ (s : State) (c : Half) (p : List Byte), s.args.argOpcode = some c → InputIs s p → 65524 ≤ p.length →
    ∃ n : Half, Completes .encCmd s 0x02#8
      { Results.empty with olen := some n, obuf := Memory.ofBytes 0 (wireCmd c p) }

/-- `40_envelope.md` R78: what ENC_CMD writes, copied to the input, DEC_FRAME decodes to the same opcode and payload. -/
def Obligations.EncodeThenDecodeGivesBack : Prop :=
  ∀ (s t u : State) (c : Half) (p : List Byte), p.length + 12 ≤ Config.params.ibufCap →
    s.args.argOpcode = some c → InputIs s p → exec .encCmd s = .next t → CopiedToInput t u →
    Completes .decFrame u 0x42#8 { emitted p with rOpcode := some c }

/-- `41_command_builders.md` R83 and R84: the configuration-session builders. -/
def Obligations.SessionBuilders : Prop :=
  ∀ s : State,
    Completes .bldEnableConfig s 0x02#8
      (emitted [0xFD#8, 0xFC#8, 0xFB#8, 0xFA#8, 0x04#8, 0x00#8, 0xFF#8, 0x00#8, 0x01#8, 0x00#8, 0x04#8, 0x03#8,
        0x02#8, 0x01#8]) ∧
    Completes .bldEndConfig s 0x02#8 (emitted (wireCmd Config.params.opcEndConfig []))

/-- `41_command_builders.md` R85: BLD_SET_RESOLUTION. -/
def Obligations.SetResolutionBuilder : Prop :=
  ∀ s : State,
    (s.args.argRes = some 0#2 → Completes .bldSetResolution s 0x02#8
      (emitted (wireCmd 0x0001#16 [Config.params.resCode0, 0#8, 0#8, 0#8, 0#8, 0#8]))) ∧
    (s.args.argRes = some 1#2 → Completes .bldSetResolution s 0x02#8
      (emitted (wireCmd 0x0001#16 [Config.params.resCode1, 0#8, 0#8, 0#8, 0#8, 0#8]))) ∧
    (s.args.argRes = some 2#2 → Completes .bldSetResolution s 0x02#8
      (emitted (wireCmd 0x0001#16 [Config.params.resCode2, 0#8, 0#8, 0#8, 0#8, 0#8]))) ∧
    (s.args.argRes = some 3#2 → Completes .bldSetResolution s 0x22#8 Results.empty)

/-- `41_command_builders.md` R86: BLD_SET_BASIC_PARAMS. -/
def Obligations.SetBasicParamsBuilder : Prop :=
  ∀ (s : State) (lo hi : Byte) (dur : Half) (pol : BitVec 1),
    s.args.argMin = some lo → s.args.argMax = some hi → s.args.argDur = some dur → s.args.argPol = some pol →
    Completes .bldSetBasicParams s 0x02#8
      (emitted (wireCmd Config.params.opcSetBasicParams
        [lo, hi, BitVec.ofNat 8 dur.toNat, BitVec.ofNat 8 (dur.toNat / 256), BitVec.ofNat 8 pol.toNat, 0#8]))

/-- `41_command_builders.md` R87 and R88: the sensitivity builders pass the fourteen gate bytes through in order. -/
def Obligations.SensitivityBuilders : Prop :=
  ∀ (s : State) (gates : Vector Byte 14), (∀ g : Fin 14, s.args.argGate[g] = some gates[g]) →
    Completes .bldSetMotionSens s 0x02#8 (emitted (wireCmd Config.params.opcSetMotionSens gates.toList)) ∧
    Completes .bldSetStaticSens s 0x02#8 (emitted (wireCmd Config.params.opcSetStaticSens gates.toList))

/-- `41_command_builders.md` R89, `60_exceptions.md` R120: BLD_SET_BAUD, for every baud value. -/
def Obligations.SetBaudBuilder : Prop :=
  ∀ (s : State) (v : BitVec 32), s.args.argBaud = some v →
    (∀ c, (v, c) ∈ Config.params.baudTable → Completes .bldSetBaud s 0x02#8
      (emitted (wireCmd Config.params.opcSetBaud [BitVec.ofNat 8 c.toNat, BitVec.ofNat 8 (c.toNat / 256)]))) ∧
    ((∀ c, (v, c) ∉ Config.params.baudTable) → Completes .bldSetBaud s 0x1A#8 Results.empty) ∧
    (v.toNat < 9600 ∨ 460800 < v.toNat → Completes .bldSetBaud s 0x1A#8 Results.empty)

/-- `41_command_builders.md` R90: BLD_BLUETOOTH. -/
def Obligations.BluetoothBuilder : Prop :=
  ∀ s : State,
    (s.args.argOn = some 1#1 →
      Completes .bldBluetooth s 0x02#8 (emitted (wireCmd Config.params.opcBluetooth Config.params.plBtOn))) ∧
    (s.args.argOn = some 0#1 →
      Completes .bldBluetooth s 0x02#8 (emitted (wireCmd Config.params.opcBluetooth Config.params.plBtOff)))

/-- `41_command_builders.md` R91 to R97: the thin fixed-payload builders. -/
def Obligations.ThinBuilders : Prop :=
  ∀ s : State,
    Completes .bldReadMac s 0x02#8 (emitted (wireCmd Config.params.opcReadMac Config.params.plReadMac)) ∧
    Completes .bldLightSensorMode s 0x02#8
      (emitted (wireCmd Config.params.opcLightSensorMode Config.params.plLightSensorMode)) ∧
    Completes .bldFactoryReset s 0x02#8 (emitted (wireCmd Config.params.opcFactoryReset Config.params.plFactoryReset)) ∧
    Completes .bldReboot s 0x02#8 (emitted (wireCmd Config.params.opcReboot Config.params.plReboot)) ∧
    Completes .bldFirmwareVersion s 0x02#8 (emitted (wireCmd 0x00A0#16 Config.params.plFirmwareVersion)) ∧
    Completes .bldBgcorrEnter s 0x02#8 (emitted (wireCmd Config.params.opcBgcorrEnter Config.params.plBgcorrEnter)) ∧
    Completes .bldBgcorrRead s 0x02#8 (emitted (wireCmd Config.params.opcBgcorrRead Config.params.plBgcorrRead))

/-- `41_command_builders.md` R98 to R104: the builders the source does not name (general knowledge of the spec, log entry 11). -/
def Obligations.QueryBuilders : Prop :=
  ∀ s : State,
    Completes .bldReadResolution s 0x02#8
      (emitted (wireCmd Config.params.opcReadResolution Config.params.plReadResolution)) ∧
    Completes .bldReadBasicParams s 0x02#8
      (emitted (wireCmd Config.params.opcReadBasicParams Config.params.plReadBasicParams)) ∧
    Completes .bldReadMotionSens s 0x02#8
      (emitted (wireCmd Config.params.opcReadMotionSens Config.params.plReadMotionSens)) ∧
    Completes .bldReadStaticSens s 0x02#8
      (emitted (wireCmd Config.params.opcReadStaticSens Config.params.plReadStaticSens)) ∧
    Completes .bldEngModeOn s 0x02#8 (emitted (wireCmd Config.params.opcEngModeOn Config.params.plEngModeOn)) ∧
    Completes .bldEngModeOff s 0x02#8 (emitted (wireCmd Config.params.opcEngModeOff Config.params.plEngModeOff)) ∧
    Completes .bldReadLightSensor s 0x02#8
      (emitted (wireCmd Config.params.opcReadLightSensor Config.params.plReadLightSensor))

/-- `41_command_builders.md` R80, R81, `00_scope.md` R2: the wire opcodes are pairwise distinct, no payload is longer than 60
bytes, the buffers have their capacities, `P_BAUD_TABLE` is a map with its ends as keys, and the resolution codes are distinct
(log entry 4). -/
def Obligations.ParametersMeetTheirConstraints : Prop :=
  Config.params.wireOpcodes.Nodup ∧ (∀ pl, pl ∈ Config.params.payloads → pl.length ≤ 60) ∧
  72 ≤ Config.params.ibufCap ∧ Config.params.ibufCap ≤ 65533 ∧ Config.params.obufCap = Config.params.ibufCap + 12 ∧
  Config.params.baudKeys.Nodup ∧ (∀ k, k ∈ Config.params.baudKeys → 9600 ≤ k.toNat ∧ k.toNat ≤ 460800) ∧
  9600#32 ∈ Config.params.baudKeys ∧ 460800#32 ∈ Config.params.baudKeys ∧
  [Config.params.resCode0, Config.params.resCode1, Config.params.resCode2].Nodup

/-- `41_command_builders.md` R82: a builder with a command writes its frame, its length and OK; one that ends with an error
writes nothing but STATUS; and neither depends on ILEN or IBUF. -/
def Obligations.BuildersReadOnlyTheirOperands : Prop :=
  ∀ (i : Instr) (s : State), readsInput i = false →
    (∀ c p, builderCommand Config.params s i = some (c, p) → p.length ≤ 60 ∧
      Completes i s 0x02#8 (emitted (wireCmd c p))) ∧
    (builderCommand Config.params s i = none → ∀ t, exec i s = .next t → t.code ≠ 0#4 ∧ t.res = Results.empty) ∧
    ∀ (n : Half) (m : Memory) (t : State), exec i s = .next t →
      exec i { s with ilen := n, ibuf := m } = .next { t with ilen := n, ibuf := m }

/-- `30_encoding.md` R73: each builder is an abbreviation of ENC_CMD with the builder's opcode and payload. -/
def Obligations.BuildersAbbreviateEncCmd : Prop :=
  ∀ (i : Instr) (s u : State) (c : Half) (p : List Byte), builderCommand Config.params s i = some (c, p) →
    u.args.argOpcode = some c → InputIs u p →
    ∃ t v, exec i s = .next t ∧ exec .encCmd u = .next v ∧ t.code = 0#4 ∧
      t.status = v.status ∧ t.res.olen = v.res.olen ∧ ∀ a, t.res.obuf.read a = v.res.obuf.read a

/-- `41_command_builders.md` R105: what a builder writes, copied to the input, DEC_FRAME decodes to the builder's opcode and
payload. -/
def Obligations.BuilderFramesDecodeBack : Prop :=
  ∀ (i : Instr) (s t u : State), readsInput i = false → exec i s = .next t → t.code = 0#4 → CopiedToInput t u →
    ∃ c p, builderCommand Config.params s i = some (c, p) ∧ c ∈ Config.params.wireOpcodes ∧
      Completes .decFrame u 0x42#8 { emitted p with rOpcode := some c }

/-- `10_state.md` R43: STATUS and every result are a function of what the operation reads, and of nothing else in the state. -/
def Obligations.OutcomeIsAFunctionOfTheInputs : Prop :=
  ∀ (i : Instr) (s u : State), SameInputs i s u →
    (∀ t, exec i s = .next t → ∃ v, exec i u = .next v ∧ v.status = t.status ∧ v.res = t.res) ∧
    ∀ f, exec i s = .fault f → exec i u = .fault f

/-- `60_exceptions.md` R125, `10_state.md` R22: an operation changes STATUS, the RO registers and OBUF, and nothing else: not OP,
ILEN, IBUF or an operand register; one that does not succeed writes STATUS alone. -/
def Obligations.OperationsLeaveTheInputs : Prop :=
  ∀ (i : Instr) (s t : State), exec i s = .next t →
    (∀ r, regAccess r ≠ .ro → readReg r t = readReg r s) ∧ (∀ a, t.ibuf.read a = s.ibuf.read a) ∧
    t.ibuf = s.ibuf ∧ t.left = s.left ∧ t.draws = s.draws ∧ t.host = s.host ∧ t.reads = s.reads ∧
    t.busy = false ∧ t.done = true ∧ (t.code ≠ 0#4 → t.res = Results.empty)

/-- `60_exceptions.md` R123: an operation completes when everything it reads holds a value, and is a fault otherwise. -/
def Obligations.OperationCompletesWhenOperandsHeld : Prop :=
  ∀ (i : Instr) (s : State),
    (OperandsHeld i s → ∃ t, exec i s = .next t ∧ t.done = true ∧ t.busy = false) ∧
    (¬ OperandsHeld i s → exec i s = .fault .operandNoValue ∨ exec i s = .fault .inputNoValue)

/-- `60_exceptions.md` R114: an operation succeeds, or is not recognized (DEC_FRAME alone), or ends with an error; in the last two
no RO register but STATUS and no byte of OBUF holds a value. -/
def Obligations.OnlySuccessWritesResults : Prop :=
  ∀ (i : Instr) (s t : State), exec i s = .next t →
    t.code = 0#4 ∨ (t.code = 1#4 ∧ i = .decFrame ∧ t.res = Results.empty) ∨
      (2 ≤ t.code.toNat ∧ t.code.toNat ≤ 8 ∧ t.res = Results.empty)

/-- `30_encoding.md` R69, `60_exceptions.md` R115: which operation writes which CODE. -/
def Obligations.CodesAsTabled : Prop :=
  ∀ (i : Instr) (s t : State), exec i s = .next t →
    t.code.toNat ≤ 8 ∧ (t.code = 1#4 → i = .decFrame) ∧
    (t.code = 2#4 ∨ t.code = 3#4 → i = .decFrame ∨ i = .decAck ∨ i = .decTarget) ∧
    (t.code = 4#4 ∨ t.code = 5#4 → i = .decTarget) ∧ (t.code = 6#4 → i = .bldSetBaud) ∧ t.code ≠ 7#4 ∧
    (t.code = 8#4 → i = .bldSetResolution)

/-- `10_state.md` R20: KIND is the kind of the magic pair the input matched, for the decode operations, on success and on error;
after any other operation it is 0. -/
def Obligations.KindReportsTheMatchedPair : Prop :=
  ∀ (i : Instr) (s t : State), exec i s = .next t →
    (isDecoder i = true → ∀ bytes, InputIs s bytes →
      ((∃ m, bytes = betweenCmd m) → t.kind = 1#2) ∧ ((∃ m, bytes = betweenTarget m) → t.kind = 2#2) ∧
      ((∀ m, bytes ≠ betweenCmd m) → (∀ m, bytes ≠ betweenTarget m) → t.kind = 0#2)) ∧
    (isDecoder i = false → t.kind = 0#2)

/-- The state after reset meets the invariant. -/
def Obligations.ResetMeetsTheInvariant : Prop := State.reset.Inv

/-- Every step keeps the invariant: legal STATUS, buffers in form and within their capacities, results consistent and hidden until
DONE = 1, an operation in progress with all it reads in place (R16 to R22, R31 to R41, R54, R114). -/
def Obligations.StepKeepsTheInvariant : Prop := ∀ s t : State, s.Inv → step s = .next t → t.Inv

/-- Every step keeps the buffers in canonical form (R45). -/
def Obligations.StepKeepsTheBufferForm : Prop :=
  ∀ s t : State, s.ibuf.wf = true → s.res.obuf.wf = true → step s = .next t → t.ibuf.wf = true ∧ t.res.obuf.wf = true
end

