-- ==== Sys2Proof/Laws/Config.lean ====
section
/-! SUPPORT. What is known of the parameters of this instance: the constraints of `spec/00_scope.md` R2, and nothing else. -/

namespace Sys2Proof

/-- The constraints can be met. -/
theorem cand_valid : Config.cand.valid = true := by decide

/-- The parameters meet the spec's constraints. -/
theorem params_valid : Config.params.valid = true := by
  unfold Config.params; split
  · assumption
  · exact cand_valid

theorem params_cap_low : 72 ≤ Config.params.ibufCap := by
  have h := params_valid; simp only [Params.valid, Params.capOk, Bool.and_eq_true, decide_eq_true_eq] at h
  exact h.1.1.1.1.1

theorem params_cap_high : Config.params.ibufCap ≤ 65533 := by
  have h := params_valid; simp only [Params.valid, Params.capOk, Bool.and_eq_true, decide_eq_true_eq] at h
  exact h.1.1.1.1.2

theorem params_opcodes_nodup : Config.params.wireOpcodes.Nodup := by
  have h := params_valid; simp only [Params.valid, Params.opcodesOk, Bool.and_eq_true, decide_eq_true_eq] at h
  exact h.1.1.1.2

/-- Every fixed payload has at most 60 bytes. -/
theorem params_payload_le (pl : List Byte) (h : pl ∈ Config.params.payloads) : pl.length ≤ 60 := by
  have hv := params_valid; simp only [Params.valid, Params.payloadsOk, Bool.and_eq_true] at hv
  simpa using List.all_eq_true.1 hv.1.1.2 pl h

/-- `P_BAUD_TABLE` is a map: no key stands twice. -/
theorem params_baud_nodup : Config.params.baudKeys.Nodup := by
  have hv := params_valid; simp only [Params.valid, Params.baudOk, Bool.and_eq_true, decide_eq_true_eq] at hv
  exact hv.2.1.1.1

theorem params_baud_keys (k : BitVec 32) (h : k ∈ Config.params.baudKeys) : 9600 ≤ k.toNat ∧ k.toNat ≤ 460800 := by
  have hv := params_valid; simp only [Params.valid, Params.baudOk, Bool.and_eq_true] at hv
  simpa using List.all_eq_true.1 hv.2.2 k h

theorem params_baud_ends : 9600#32 ∈ Config.params.baudKeys ∧ 460800#32 ∈ Config.params.baudKeys := by
  have hv := params_valid; simp only [Params.valid, Params.baudOk, Bool.and_eq_true, List.contains_iff_mem] at hv
  exact ⟨hv.2.1.1.2, hv.2.1.2⟩

theorem params_resCodes_nodup :
    [Config.params.resCode0, Config.params.resCode1, Config.params.resCode2].Nodup := by
  have hv := params_valid; simp only [Params.valid, Params.resCodesOk, Bool.and_eq_true, decide_eq_true_eq] at hv
  exact hv.1.2

end Sys2Proof
end

