-- ==== Sys2Proof/Laws/State.lean ====
section
/-! SUPPORT. The fields of a state after each shared update, one lemma per field, so that no proof unfolds a record update. -/

namespace Sys2Proof.Machine

@[simp] theorem startEvent_op (s : State) : (startEvent s).op = s.op := rfl
@[simp] theorem startEvent_status (s : State) : (startEvent s).status = statusBusy := rfl
@[simp] theorem startEvent_ilen (s : State) : (startEvent s).ilen = s.ilen := rfl
@[simp] theorem startEvent_args (s : State) : (startEvent s).args = s.args := rfl
@[simp] theorem startEvent_ibuf (s : State) : (startEvent s).ibuf = s.ibuf := rfl
@[simp] theorem startEvent_res (s : State) : (startEvent s).res = Results.empty := rfl
@[simp] theorem startEvent_left (s : State) : (startEvent s).left = Config.latency s.draws := rfl
@[simp] theorem startEvent_draws (s : State) : (startEvent s).draws = s.draws + 1 := rfl
@[simp] theorem startEvent_host (s : State) : (startEvent s).host = s.host := rfl
@[simp] theorem startEvent_reads (s : State) : (startEvent s).reads = s.reads := rfl

@[simp] theorem resetEvent_op (s : State) : (resetEvent s).op = none := rfl
@[simp] theorem resetEvent_status (s : State) : (resetEvent s).status = 0x00#8 := rfl
@[simp] theorem resetEvent_ilen (s : State) : (resetEvent s).ilen = 0x0000#16 := rfl
@[simp] theorem resetEvent_args (s : State) : (resetEvent s).args = Operands.empty := rfl
@[simp] theorem resetEvent_ibuf (s : State) : (resetEvent s).ibuf = [] := rfl
@[simp] theorem resetEvent_res (s : State) : (resetEvent s).res = Results.empty := rfl
@[simp] theorem resetEvent_left (s : State) : (resetEvent s).left = 0 := rfl
@[simp] theorem resetEvent_draws (s : State) : (resetEvent s).draws = s.draws := rfl
@[simp] theorem resetEvent_host (s : State) : (resetEvent s).host = s.host := rfl
@[simp] theorem resetEvent_reads (s : State) : (resetEvent s).reads = s.reads := rfl

@[simp] theorem received_op (sp : Space) (n v : Nat) (s : State) : (received sp n v s).op = s.op := rfl
@[simp] theorem received_status (sp : Space) (n v : Nat) (s : State) : (received sp n v s).status = s.status := rfl
@[simp] theorem received_ilen (sp : Space) (n v : Nat) (s : State) : (received sp n v s).ilen = s.ilen := rfl
@[simp] theorem received_args (sp : Space) (n v : Nat) (s : State) : (received sp n v s).args = s.args := rfl
@[simp] theorem received_ibuf (sp : Space) (n v : Nat) (s : State) : (received sp n v s).ibuf = s.ibuf := rfl
@[simp] theorem received_res (sp : Space) (n v : Nat) (s : State) : (received sp n v s).res = s.res := rfl
@[simp] theorem received_left (sp : Space) (n v : Nat) (s : State) : (received sp n v s).left = s.left := rfl
@[simp] theorem received_draws (sp : Space) (n v : Nat) (s : State) : (received sp n v s).draws = s.draws := rfl
@[simp] theorem received_host (sp : Space) (n v : Nat) (s : State) : (received sp n v s).host = s.host := rfl
@[simp] theorem received_reads (sp : Space) (n v : Nat) (s : State) : (received sp n v s).reads = s.reads ++ [⟨sp, n, v⟩] := rfl

@[simp] theorem reset_op : State.reset.op = none := rfl
@[simp] theorem reset_status : State.reset.status = 0x00#8 := rfl
@[simp] theorem reset_ilen : State.reset.ilen = 0x0000#16 := rfl
@[simp] theorem reset_args : State.reset.args = Operands.empty := rfl
@[simp] theorem reset_ibuf : State.reset.ibuf = [] := rfl
@[simp] theorem reset_res : State.reset.res = Results.empty := rfl
@[simp] theorem reset_left : State.reset.left = 0 := rfl
@[simp] theorem reset_draws : State.reset.draws = 0 := rfl
@[simp] theorem reset_host : State.reset.host = [] := rfl
@[simp] theorem reset_reads : State.reset.reads = [] := rfl

@[simp] theorem emit_olen (r : Results) (b : List Byte) : (r.emit b).olen = some (olenOf b) := rfl
@[simp] theorem emit_rOpcode (r : Results) (b : List Byte) : (r.emit b).rOpcode = r.rOpcode := rfl
@[simp] theorem emit_tState (r : Results) (b : List Byte) : (r.emit b).tState = r.tState := rfl
@[simp] theorem emit_tMDist (r : Results) (b : List Byte) : (r.emit b).tMDist = r.tMDist := rfl
@[simp] theorem emit_tMEn (r : Results) (b : List Byte) : (r.emit b).tMEn = r.tMEn := rfl
@[simp] theorem emit_tSDist (r : Results) (b : List Byte) : (r.emit b).tSDist = r.tSDist := rfl
@[simp] theorem emit_tSEn (r : Results) (b : List Byte) : (r.emit b).tSEn = r.tSEn := rfl
@[simp] theorem emit_tEng (r : Results) (b : List Byte) : (r.emit b).tEng = r.tEng := rfl
@[simp] theorem emit_tB1 (r : Results) (b : List Byte) : (r.emit b).tB1 = r.tB1 := rfl
@[simp] theorem emit_tB2 (r : Results) (b : List Byte) : (r.emit b).tB2 = r.tB2 := rfl
@[simp] theorem emit_tLight (r : Results) (b : List Byte) : (r.emit b).tLight = r.tLight := rfl
@[simp] theorem emit_tCalib (r : Results) (b : List Byte) : (r.emit b).tCalib = r.tCalib := rfl
@[simp] theorem emit_tMGate (r : Results) (b : List Byte) : (r.emit b).tMGate = r.tMGate := rfl
@[simp] theorem emit_tSGate (r : Results) (b : List Byte) : (r.emit b).tSGate = r.tSGate := rfl
@[simp] theorem emit_obuf (r : Results) (b : List Byte) : (r.emit b).obuf = Memory.ofBytes 0 b := rfl

@[simp] theorem resultsEmpty_olen : Results.empty.olen = none := rfl
@[simp] theorem resultsEmpty_rOpcode : Results.empty.rOpcode = none := rfl
@[simp] theorem resultsEmpty_tState : Results.empty.tState = none := rfl
@[simp] theorem resultsEmpty_tMDist : Results.empty.tMDist = none := rfl
@[simp] theorem resultsEmpty_tMEn : Results.empty.tMEn = none := rfl
@[simp] theorem resultsEmpty_tSDist : Results.empty.tSDist = none := rfl
@[simp] theorem resultsEmpty_tSEn : Results.empty.tSEn = none := rfl
@[simp] theorem resultsEmpty_tEng : Results.empty.tEng = none := rfl
@[simp] theorem resultsEmpty_tB1 : Results.empty.tB1 = none := rfl
@[simp] theorem resultsEmpty_tB2 : Results.empty.tB2 = none := rfl
@[simp] theorem resultsEmpty_tLight : Results.empty.tLight = none := rfl
@[simp] theorem resultsEmpty_tCalib : Results.empty.tCalib = none := rfl
@[simp] theorem resultsEmpty_tMGate : Results.empty.tMGate = Vector.replicate 14 none := rfl
@[simp] theorem resultsEmpty_tSGate : Results.empty.tSGate = Vector.replicate 14 none := rfl
@[simp] theorem resultsEmpty_obuf : Results.empty.obuf = [] := rfl

/-- The host's turn and the registers: what is not written by `setReg` stays. -/
@[simp] theorem setReg_status (r : RegName) (v : Nat) (s : State) : (setReg r v s).status = s.status := by cases r <;> rfl
@[simp] theorem setReg_ibuf (r : RegName) (v : Nat) (s : State) : (setReg r v s).ibuf = s.ibuf := by cases r <;> rfl
@[simp] theorem setReg_res (r : RegName) (v : Nat) (s : State) : (setReg r v s).res = s.res := by cases r <;> rfl
@[simp] theorem setReg_left (r : RegName) (v : Nat) (s : State) : (setReg r v s).left = s.left := by cases r <;> rfl
@[simp] theorem setReg_draws (r : RegName) (v : Nat) (s : State) : (setReg r v s).draws = s.draws := by cases r <;> rfl
@[simp] theorem setReg_host (r : RegName) (v : Nat) (s : State) : (setReg r v s).host = s.host := by cases r <;> rfl
@[simp] theorem setReg_reads (r : RegName) (v : Nat) (s : State) : (setReg r v s).reads = s.reads := by cases r <;> rfl

/-- STATUS fields of the values the codec writes. -/
@[simp] theorem statusBusy_busy : statusBusy.getLsbD 0 = true := by decide
@[simp] theorem statusBusy_done : statusBusy.getLsbD 1 = false := by decide
@[simp] theorem statusDone_busy (c : StatusCode) (k : FrameKind) : (statusDone c k).getLsbD 0 = false := by
  cases c <;> cases k <;> decide
@[simp] theorem statusDone_done (c : StatusCode) (k : FrameKind) : (statusDone c k).getLsbD 1 = true := by
  cases c <;> cases k <;> decide
@[simp] theorem statusDone_code (c : StatusCode) (k : FrameKind) : (statusDone c k).extractLsb' 2 4 = codeBits c := by
  cases c <;> cases k <;> decide
@[simp] theorem statusDone_kind (c : StatusCode) (k : FrameKind) : (statusDone c k).extractLsb' 6 2 = kindBits k := by
  cases c <;> cases k <;> decide

end Sys2Proof.Machine
end

