-- ==== Sys2Proof/Laws/Memory.lean ====
section
/-! SUPPORT. The byte buffers: read after write, the canonical form, and byte strings in a buffer. -/

namespace Sys2Proof.Machine

@[simp] theorem read_nil (k : Nat) : Memory.read [] k = none := rfl

theorem read_cons (a : Nat) (b : Byte) (m : Memory) (k : Nat) :
    Memory.read ((a, b) :: m) k = if a = k then some b else Memory.read m k := rfl

/-- Read after write: the byte written there, every other byte as before. -/
theorem read_write (m : Memory) (k : Nat) (v : Byte) (a : Nat) :
    (m.write k v).read a = if a = k then some v else m.read a := by
  induction m with
  | nil => simp [Memory.write, read_cons, eq_comm]
  | cons c m ih =>
    obtain ⟨i, b⟩ := c
    simp only [Memory.write]
    split
    · simp [read_cons, eq_comm]
    · split
      · subst_vars; simp only [read_cons]; split <;> simp_all [eq_comm]
      · simp only [read_cons, ih]
        split
        · rw [if_neg (by omega)]
        · rfl

/-- The head of a written buffer is the index written or the old head. -/
theorem wf_write_cons (i : Nat) (b : Byte) (m : Memory) (k : Nat) (v : Byte) (hi : i < k)
    (h : Memory.wf ((i, b) :: m) = true) : Memory.wf ((i, b) :: m.write k v) = true := by
  induction m generalizing i b with
  | nil => simp [Memory.write, Memory.wf, hi]
  | cons c m ih =>
    obtain ⟨j, d⟩ := c
    simp only [Memory.wf, Bool.and_eq_true, decide_eq_true_eq] at h
    simp only [Memory.write]
    split
    · simp [Memory.wf, hi, h.2]; assumption
    · split
      · subst_vars
        obtain ⟨h1, h2⟩ := h
        cases m with
        | nil => simp [Memory.wf, hi]
        | cons e m => simp_all [Memory.wf]
      · simp only [Memory.wf, Bool.and_eq_true, decide_eq_true_eq]
        exact ⟨h.1, ih j d (by omega) h.2⟩

/-- A write keeps the canonical form. -/
theorem wf_write (m : Memory) (k : Nat) (v : Byte) (h : m.wf = true) : (m.write k v).wf = true := by
  cases m with
  | nil => rfl
  | cons c m =>
    obtain ⟨i, b⟩ := c
    simp only [Memory.write]
    split
    · simp [Memory.wf, h]; assumption
    · split
      · subst_vars
        cases m with
        | nil => rfl
        | cons e m => simpa [Memory.wf] using h
      · exact wf_write_cons i b m k v (by omega) h

/-- A buffer made of a byte string is in canonical form. -/
theorem wf_ofBytes (a : Nat) (s : List Byte) : (Memory.ofBytes a s).wf = true := by
  induction s generalizing a with
  | nil => rfl
  | cons b t ih =>
    cases t with
    | nil => rfl
    | cons c t =>
      have := ih (a + 1)
      simp only [Memory.ofBytes] at this ⊢
      simp [Memory.wf, this]

/-- A buffer made of a byte string holds exactly its bytes. -/
theorem read_ofBytes (a : Nat) (s : List Byte) (k : Nat) :
    (Memory.ofBytes a s).read k = if a ≤ k then s[k - a]? else none := by
  induction s generalizing a with
  | nil => simp [Memory.ofBytes]
  | cons b t ih =>
    simp only [Memory.ofBytes, read_cons, ih]
    by_cases h : a = k
    · subst h; simp
    · by_cases h2 : a ≤ k
      · have : k - a = (k - (a + 1)) + 1 := by omega
        simp [h, h2, this, show a + 1 ≤ k by omega]
      · simp [h, h2, show ¬ a + 1 ≤ k by omega]

/-- What `bytesFrom` answers: the bytes at the indices, each of which holds a value. -/
theorem bytesFrom_eq_some (m : Memory) (a n : Nat) (s : List Byte) :
    m.bytesFrom a n = some s ↔ s.length = n ∧ ∀ k, k < n → m.read (a + k) = s[k]? := by
  induction n generalizing a s with
  | zero =>
    simp only [Memory.bytesFrom, Option.some.injEq]
    constructor
    · rintro rfl; simp
    · rintro ⟨h, -⟩; exact (List.length_eq_zero_iff.mp h).symm
  | succ n ih =>
    simp only [Memory.bytesFrom]
    constructor
    · intro h
      split at h
      · cases h
      · rename_i b hb
        split at h
        · rename_i t ht
          cases h
          obtain ⟨hl, hr⟩ := (ih _ _).1 ht
          refine ⟨by simp [hl], fun k hk => ?_⟩
          cases k with
          | zero => simpa using hb
          | succ k =>
            have := hr k (by omega)
            simpa [Nat.add_assoc, Nat.add_comm 1 k] using this
        · cases h
    · rintro ⟨hl, hr⟩
      cases s with
      | nil => simp at hl
      | cons b t =>
        have h0 : m.read a = some b := by simpa using hr 0 (by omega)
        have ht : m.bytesFrom (a + 1) n = some t := by
          refine (ih _ _).2 ⟨by simpa using hl, fun k hk => ?_⟩
          have := hr (k + 1) (by omega)
          simpa [Nat.add_assoc, Nat.add_comm 1 k] using this
        simp [h0, ht]

/-- `bytesFrom` answers exactly where every byte holds a value. -/
theorem bytesFrom_isSome (m : Memory) (a n : Nat) :
    (m.bytesFrom a n).isSome = true ↔ ∀ k, k < n → m.read (a + k) ≠ none := by
  induction n generalizing a with
  | zero => simp [Memory.bytesFrom]
  | succ n ih =>
    simp only [Memory.bytesFrom]
    constructor
    · intro h
      split at h
      · cases h
      · rename_i b hb
        split at h
        · rename_i t ht
          have := (ih (a + 1)).1 (by simp [ht])
          intro k hk
          cases k with
          | zero => simp [hb]
          | succ k => simpa [Nat.add_assoc, Nat.add_comm 1 k] using this k (by omega)
        · cases h
    · intro h
      have h0 : m.read a ≠ none := by simpa using h 0 (by omega)
      have h1 := (ih (a + 1)).2 fun k hk => by
        simpa [Nat.add_assoc, Nat.add_comm 1 k] using h (k + 1) (by omega)
      obtain ⟨b, hb⟩ := Option.ne_none_iff_exists'.1 h0
      obtain ⟨t, ht⟩ := Option.isSome_iff_exists.1 h1
      simp [hb, ht]

/-- `bytesFrom` depends on the bytes read only. -/
theorem bytesFrom_congr (m m' : Memory) (a n : Nat) (h : ∀ k, k < n → m.read (a + k) = m'.read (a + k)) :
    m.bytesFrom a n = m'.bytesFrom a n := by
  cases h1 : m'.bytesFrom a n with
  | some s =>
    obtain ⟨hl, hr⟩ := (bytesFrom_eq_some _ _ _ _).1 h1
    exact (bytesFrom_eq_some _ _ _ _).2 ⟨hl, fun k hk => (h k hk).trans (hr k hk)⟩
  | none =>
    cases h2 : m.bytesFrom a n with
    | none => rfl
    | some s =>
      obtain ⟨hl, hr⟩ := (bytesFrom_eq_some _ _ _ _).1 h2
      rw [(bytesFrom_eq_some _ _ _ _).2 ⟨hl, fun k hk => ((h k hk).symm).trans (hr k hk)⟩] at h1
      cases h1

/-- What the input byte string is. -/
theorem inputBytes_eq_some (s : State) (bytes : List Byte) :
    inputBytes s = some bytes ↔
      bytes.length = s.ilen.toNat ∧ ∀ k, k < s.ilen.toNat → s.ibuf.read k = bytes[k]? := by
  unfold inputBytes; rw [bytesFrom_eq_some]; simp

/-- The input byte string is shorter than 65536 bytes. -/
theorem inputBytes_length (s : State) (bytes : List Byte) (h : inputBytes s = some bytes) : bytes.length < 65536 := by
  have := ((inputBytes_eq_some s bytes).1 h).1; have := s.ilen.isLt; omega

/-- Equal lengths and equal bytes give equal input strings. -/
theorem inputBytes_congr (s t : State) (hl : s.ilen = t.ilen)
    (h : ∀ k, k < s.ilen.toNat → s.ibuf.read k = t.ibuf.read k) : inputBytes s = inputBytes t := by
  unfold inputBytes; rw [← hl]; exact bytesFrom_congr _ _ _ _ (by simpa using h)

/-- A byte string copied from OBUF to IBUF is the input (R139). -/
theorem inputBytes_of_copied (s t : State) (bytes : List Byte) (hlen : bytes.length < 65536)
    (hr : s.res = { s.res with olen := some (olenOf bytes), obuf := Memory.ofBytes 0 bytes })
    (h : CopiedToInput s t) : inputBytes t = some bytes := by
  obtain ⟨h1, h2⟩ := h
  rw [hr] at h1 h2
  simp only [olenOf, hlen, if_true, Option.some.injEq] at h1
  have hl : t.ilen.toNat = bytes.length := by rw [← h1]; simp; omega
  refine (inputBytes_eq_some _ _).2 ⟨hl.symm, fun k hk => ?_⟩
  rw [h2 k hk, read_ofBytes]; simp

/-- The input holds values exactly when each of its bytes does. -/
theorem inputBytes_isSome (s : State) :
    (inputBytes s).isSome = true ↔ ∀ k, k < s.ilen.toNat → s.ibuf.read k ≠ none := by
  unfold inputBytes; rw [bytesFrom_isSome]; simp

/-- What `allHeld` answers. -/
theorem allHeld_eq_some {α : Type} (l : List (Option α)) (r : List α) : allHeld l = some r ↔ l = r.map some := by
  induction l generalizing r with
  | nil => cases r <;> simp [allHeld]
  | cons o l ih =>
    cases o with
    | none => cases r <;> simp [allHeld]
    | some a =>
      simp only [allHeld]
      cases h : allHeld l with
      | some t => have := (ih t).1 h; subst this; cases r <;> simp [List.map_inj_right (fun _ _ h => Option.some.inj h)]
      | none =>
        cases r with
        | nil => simp
        | cons b r =>
          simp only [List.map_cons, List.cons.injEq, Option.some.injEq, reduceCtorEq, false_iff, not_and]
          intro _ hl; rw [(ih r).2 hl] at h; cases h

/-- `allHeld` answers exactly where every element holds a value. -/
theorem allHeld_isSome {α : Type} (l : List (Option α)) : (allHeld l).isSome = true ↔ ∀ o, o ∈ l → o ≠ none := by
  induction l with
  | nil => simp [allHeld]
  | cons o l ih =>
    cases o with
    | none => simp [allHeld]
    | some a =>
      simp only [allHeld]
      cases h : allHeld l with
      | some t => simpa [h] using ih
      | none => simpa [h] using ih

end Sys2Proof.Machine
end

