-- ==== Sys2Proof/Laws/Wire.lean ====
section
/-! SUPPORT. Byte order, and the envelope decode against the wire formats written out byte by byte. -/

namespace Sys2Proof.Machine

theorem lo8_eq (v : Half) : lo8 v = BitVec.ofNat 8 v.toNat := by
  apply BitVec.eq_of_toNat_eq; simp [lo8, BitVec.extractLsb'_toNat]

theorem hi8_eq (v : Half) : hi8 v = BitVec.ofNat 8 (v.toNat / 256) := by
  apply BitVec.eq_of_toNat_eq
  simp [hi8, BitVec.extractLsb'_toNat, Nat.shiftRight_eq_div_pow]

/-- Little-endian reading, as numbers. -/
theorem le16_toNat (lo hi : Byte) : (le16 lo hi).toNat = lo.toNat + 256 * hi.toNat := by
  have h1 : (le16 lo hi).toNat = hi.toNat <<< 8 ||| lo.toNat := BitVec.toNat_append hi lo
  rw [h1, ← Nat.shiftLeft_add_eq_or_of_lt (show lo.toNat < 2 ^ 8 from lo.isLt), Nat.shiftLeft_eq]
  omega

/-- Reading back what `u16le` wrote. -/
theorem le16_lo8_hi8 (v : Half) : le16 (lo8 v) (hi8 v) = v := by
  apply BitVec.eq_of_toNat_eq
  rw [le16_toNat, lo8_eq, hi8_eq]; simp only [BitVec.toNat_ofNat]; have := v.isLt; omega

theorem lo8_le16 (lo hi : Byte) : lo8 (le16 lo hi) = lo := by
  apply BitVec.eq_of_toNat_eq; rw [lo8_eq, le16_toNat]; simp only [BitVec.toNat_ofNat]; have := lo.isLt; omega

theorem hi8_le16 (lo hi : Byte) : hi8 (le16 lo hi) = hi := by
  apply BitVec.eq_of_toNat_eq; rw [hi8_eq, le16_toNat]; simp only [BitVec.toNat_ofNat]
  have := lo.isLt; have := hi.isLt; omega

/-- The frame ENC_CMD and the builders serialise is the wire format of R59. -/
theorem cmdFrame_eq_wireCmd (opcode : Half) (p : List Byte) : cmdFrame opcode p = wireCmd opcode p := by
  have h1 : lo8 (BitVec.ofNat 16 (p.length + 2)) = BitVec.ofNat 8 (p.length + 2) := by
    apply BitVec.eq_of_toNat_eq; rw [lo8_eq]; simp only [BitVec.toNat_ofNat]; omega
  have h2 : hi8 (BitVec.ofNat 16 (p.length + 2)) = BitVec.ofNat 8 ((p.length + 2) / 256) := by
    apply BitVec.eq_of_toNat_eq; rw [hi8_eq]; simp only [BitVec.toNat_ofNat]; omega
  simp only [cmdFrame, wireCmd, u16le, h1, h2, lo8_eq opcode, hi8_eq opcode, cmdHead, cmdTail]

@[simp] theorem wireCmd_length (opcode : Half) (p : List Byte) : (wireCmd opcode p).length = p.length + 12 := by
  simp [wireCmd]

@[simp] theorem wireTarget_length (t : List Byte) : (wireTarget t).length = t.length + 10 := by
  simp [wireTarget]

@[simp] theorem betweenCmd_length (m : List Byte) : (betweenCmd m).length = m.length + 8 := by simp [betweenCmd]

@[simp] theorem betweenTarget_length (m : List Byte) : (betweenTarget m).length = m.length + 8 := by
  simp [betweenTarget]

/-- The bytes after four others and before four others. -/
theorem slice_between (a b c d e f g h : Byte) (mid : List Byte) :
    slice ([a, b, c, d] ++ mid ++ [e, f, g, h]) 4 (mid.length + 8 - 4) = mid := by
  simp [slice]

/-- A match, in one formula: the magic pair stands around some bytes. -/
theorem matchesPair_iff (s : List Byte) (a b c d e f g h : Byte) :
    matchesPair s [a, b, c, d] [e, f, g, h] = true ↔ ∃ mid, s = [a, b, c, d] ++ mid ++ [e, f, g, h] := by
  simp only [matchesPair, Bool.and_eq_true, decide_eq_true_eq, beq_iff_eq]
  constructor
  · rintro ⟨⟨h1, h2⟩, h3⟩
    refine ⟨(s.drop 4).take (s.length - 8), ?_⟩
    have h2' : s.take 4 = [a, b, c, d] := by simpa [slice] using h2
    have h3' : s.drop (s.length - 4) = [e, f, g, h] := by
      rw [← h3, slice, List.take_of_length_le (by simp)]
    rw [← h2', ← h3']
    have e1 : s.drop (s.length - 4) = (s.drop 4).drop (s.length - 8) := by
      rw [List.drop_drop]; congr 1; omega
    rw [e1, List.append_assoc, List.take_append_drop, List.take_append_drop]
  · rintro ⟨mid, rfl⟩
    refine ⟨⟨by simp, by simp [slice]⟩, ?_⟩
    simp [slice]

theorem matchesPair_cmd (s : List Byte) : matchesPair s cmdHead cmdTail = true ↔ ∃ mid, s = betweenCmd mid :=
  matchesPair_iff s _ _ _ _ _ _ _ _

theorem matchesPair_target (s : List Byte) : matchesPair s tgtHead tgtTail = true ↔ ∃ mid, s = betweenTarget mid :=
  matchesPair_iff s _ _ _ _ _ _ _ _

/-- No byte string matches both pairs: the first bytes differ (R58). -/
theorem betweenTarget_ne_betweenCmd (m m' : List Byte) : betweenTarget m ≠ betweenCmd m' := by
  simp [betweenTarget, betweenCmd]

theorem matchesPair_cmd_betweenTarget (m : List Byte) : matchesPair (betweenTarget m) cmdHead cmdTail = false := by
  cases h : matchesPair (betweenTarget m) cmdHead cmdTail with
  | false => rfl
  | true => obtain ⟨m', h'⟩ := (matchesPair_cmd _).1 h; exact absurd h' (betweenTarget_ne_betweenCmd m m')

theorem matchesPair_cmd_betweenCmd (m : List Byte) : matchesPair (betweenCmd m) cmdHead cmdTail = true :=
  (matchesPair_cmd _).2 ⟨m, rfl⟩

theorem matchesPair_target_betweenTarget (m : List Byte) : matchesPair (betweenTarget m) tgtHead tgtTail = true :=
  (matchesPair_target _).2 ⟨m, rfl⟩

/-- The envelope decode of a byte string no pair matches. -/
theorem envDecode_noMatch (s : List Byte) (h1 : ∀ m, s ≠ betweenCmd m) (h2 : ∀ m, s ≠ betweenTarget m) :
    envDecode s = .noMatch := by
  have e1 : matchesPair s cmdHead cmdTail ≠ true := fun h => by
    obtain ⟨m, hm⟩ := (matchesPair_cmd s).1 h; exact h1 m hm
  have e2 : matchesPair s tgtHead tgtTail ≠ true := fun h => by
    obtain ⟨m, hm⟩ := (matchesPair_target s).1 h; exact h2 m hm
  simp [envDecode, e1, e2]

/-- The envelope decode of a Command/Ack match that is too short. -/
theorem envDecode_cmd_short (m : List Byte) (h : m.length < 4) :
    envDecode (betweenCmd m) = .err .frameMalformed .cmdAck := by
  simp [envDecode, matchesPair_cmd_betweenCmd]; omega

/-- The envelope decode of a Target match that is too short. -/
theorem envDecode_target_short (m : List Byte) (h : m.length < 2) :
    envDecode (betweenTarget m) = .err .frameMalformed .target := by
  simp [envDecode, matchesPair_cmd_betweenTarget, matchesPair_target_betweenTarget]; omega

/-- The envelope decode of a Command/Ack match with room for its fields: the declared length decides. -/
theorem envDecode_cmd (l0 l1 o0 o1 : Byte) (p : List Byte) :
    envDecode (betweenCmd ([l0, l1, o0, o1] ++ p)) =
      if l0.toNat + 256 * l1.toNat = p.length + 2 then .cmdAck (le16 o0 o1) p else .err .lengthMismatch .cmdAck := by
  have hd : declaredLength (betweenCmd ([l0, l1, o0, o1] ++ p)) = le16 l0 l1 := rfl
  have h6 : le16 (byteAt (betweenCmd ([l0, l1, o0, o1] ++ p)) 6) (byteAt (betweenCmd ([l0, l1, o0, o1] ++ p)) 7) = le16 o0 o1 := rfl
  have hs : slice (betweenCmd ([l0, l1, o0, o1] ++ p)) 8 ((betweenCmd ([l0, l1, o0, o1] ++ p)).length - 4) = p := by
    simp [slice, betweenCmd]
  simp only [envDecode, matchesPair_cmd_betweenCmd, if_true, hd, h6, hs, le16_toNat]
  rw [if_neg (by simp)]
  simp only [betweenCmd_length, List.length_append, List.length_cons, List.length_nil]
  by_cases h : l0.toNat + 256 * l1.toNat = p.length + 2
  · rw [if_neg (by omega), if_pos h]
  · rw [if_pos (by omega), if_neg h]

/-- The envelope decode of a Target match with room for its length: the declared length decides. -/
theorem envDecode_target (l0 l1 : Byte) (t : List Byte) :
    envDecode (betweenTarget ([l0, l1] ++ t)) =
      if l0.toNat + 256 * l1.toNat = t.length then .target t else .err .lengthMismatch .target := by
  have hd : declaredLength (betweenTarget ([l0, l1] ++ t)) = le16 l0 l1 := rfl
  have hs : slice (betweenTarget ([l0, l1] ++ t)) 6 ((betweenTarget ([l0, l1] ++ t)).length - 4) = t := by
    simp [slice, betweenTarget]
  simp only [envDecode, matchesPair_cmd_betweenTarget, matchesPair_target_betweenTarget, if_true, hd, hs, le16_toNat]
  rw [if_neg (by simp), if_neg (by simp)]
  simp only [betweenTarget_length, List.length_append, List.length_cons, List.length_nil]
  by_cases h : l0.toNat + 256 * l1.toNat = t.length
  · rw [if_neg (by omega), if_pos h]
  · rw [if_pos (by omega), if_neg h]

/-- A Command/Ack frame is its magic pair around its fields. -/
theorem wireCmd_eq_between (c : Half) (p : List Byte) :
    wireCmd c p = betweenCmd ([BitVec.ofNat 8 (p.length + 2), BitVec.ofNat 8 ((p.length + 2) / 256),
      BitVec.ofNat 8 c.toNat, BitVec.ofNat 8 (c.toNat / 256)] ++ p) := by
  simp [wireCmd, betweenCmd]

/-- A Target frame is its magic pair around its fields. -/
theorem wireTarget_eq_between (t : List Byte) :
    wireTarget t = betweenTarget ([BitVec.ofNat 8 t.length, BitVec.ofNat 8 (t.length / 256)] ++ t) := by
  simp [wireTarget, betweenTarget]

/-- Decoding what R59 lays out gives back opcode and payload. -/
theorem envDecode_wireCmd (c : Half) (p : List Byte) (h : p.length + 2 < 65536) :
    envDecode (wireCmd c p) = .cmdAck c p := by
  rw [wireCmd_eq_between, envDecode_cmd, if_pos, ← lo8_eq, ← hi8_eq, le16_lo8_hi8]
  simp only [BitVec.toNat_ofNat]; omega

/-- Decoding what R60 lays out gives back the intraframe. -/
theorem envDecode_wireTarget (t : List Byte) (h : t.length < 65536) : envDecode (wireTarget t) = .target t := by
  rw [wireTarget_eq_between, envDecode_target, if_pos]
  simp only [BitVec.toNat_ofNat]; omega

/-- Every byte string is one of the six cases the envelope decode tells apart. -/
theorem envelope_cases (s : List Byte) :
    ((∀ m, s ≠ betweenCmd m) ∧ ∀ m, s ≠ betweenTarget m) ∨
    (∃ m, s = betweenCmd m ∧ m.length < 4) ∨ (∃ m, s = betweenTarget m ∧ m.length < 2) ∨
    (∃ l0 l1 o0 o1 p, s = betweenCmd ([l0, l1, o0, o1] ++ p)) ∨ ∃ l0 l1 t, s = betweenTarget ([l0, l1] ++ t) := by
  by_cases h1 : ∃ m, s = betweenCmd m
  · obtain ⟨m, rfl⟩ := h1
    by_cases h : m.length < 4
    · exact .inr (.inl ⟨m, rfl, h⟩)
    · match m, h with
      | l0 :: l1 :: o0 :: o1 :: p, _ => exact .inr (.inr (.inr (.inl ⟨l0, l1, o0, o1, p, rfl⟩)))
      | [], h => simp at h
      | [_], h => simp at h
      | [_, _], h => simp at h
      | [_, _, _], h => simp at h
  · by_cases h2 : ∃ m, s = betweenTarget m
    · obtain ⟨m, rfl⟩ := h2
      by_cases h : m.length < 2
      · exact .inr (.inr (.inl ⟨m, rfl, h⟩))
      · match m, h with
        | l0 :: l1 :: t, _ => exact .inr (.inr (.inr (.inr ⟨l0, l1, t, rfl⟩)))
        | [], h => simp at h
        | [_], h => simp at h
    · exact .inl ⟨fun m hm => h1 ⟨m, hm⟩, fun m hm => h2 ⟨m, hm⟩⟩

/-- What the envelope decode accepts as a Command/Ack frame is one, byte by byte. -/
theorem eq_wireCmd_of_envDecode (s : List Byte) (c : Half) (p : List Byte) (h : envDecode s = .cmdAck c p) :
    s = wireCmd c p ∧ p.length + 2 < 65536 := by
  rcases envelope_cases s with ⟨h1, h2⟩ | ⟨m, rfl, hm⟩ | ⟨m, rfl, hm⟩ | ⟨l0, l1, o0, o1, q, rfl⟩ | ⟨l0, l1, t, rfl⟩
  · rw [envDecode_noMatch s h1 h2] at h; cases h
  · rw [envDecode_cmd_short m hm] at h; cases h
  · rw [envDecode_target_short m hm] at h; cases h
  · rw [envDecode_cmd] at h
    split at h
    · rename_i hl
      cases h
      have := l0.isLt; have := l1.isLt
      refine ⟨?_, by omega⟩
      rw [wireCmd_eq_between, ← lo8_eq, ← hi8_eq, lo8_le16, hi8_le16]
      have e0 : l0 = BitVec.ofNat 8 (p.length + 2) := by
        apply BitVec.eq_of_toNat_eq; simp only [BitVec.toNat_ofNat]; omega
      have e1 : l1 = BitVec.ofNat 8 ((p.length + 2) / 256) := by
        apply BitVec.eq_of_toNat_eq; simp only [BitVec.toNat_ofNat]; omega
      rw [← e0, ← e1]
    · cases h
  · rw [envDecode_target] at h; split at h <;> cases h

/-- What the envelope decode accepts as a Target frame is one, byte by byte. -/
theorem eq_wireTarget_of_envDecode (s t : List Byte) (h : envDecode s = .target t) :
    s = wireTarget t ∧ t.length < 65536 := by
  rcases envelope_cases s with ⟨h1, h2⟩ | ⟨m, rfl, hm⟩ | ⟨m, rfl, hm⟩ | ⟨l0, l1, o0, o1, q, rfl⟩ | ⟨l0, l1, t', rfl⟩
  · rw [envDecode_noMatch s h1 h2] at h; cases h
  · rw [envDecode_cmd_short m hm] at h; cases h
  · rw [envDecode_target_short m hm] at h; cases h
  · rw [envDecode_cmd] at h; split at h <;> cases h
  · rw [envDecode_target] at h
    split at h
    · rename_i hl
      cases h
      have := l0.isLt; have := l1.isLt
      refine ⟨?_, by omega⟩
      rw [wireTarget_eq_between]
      have e0 : l0 = BitVec.ofNat 8 t.length := by
        apply BitVec.eq_of_toNat_eq; simp only [BitVec.toNat_ofNat]; omega
      have e1 : l1 = BitVec.ofNat 8 (t.length / 256) := by
        apply BitVec.eq_of_toNat_eq; simp only [BitVec.toNat_ofNat]; omega
      rw [← e0, ← e1]
    · cases h

end Sys2Proof.Machine
end

