-- ==== Sys2Proof/Laws/Exec.lean ====
section
/-! SUPPORT. Everything an operation can do, said once: it completes with an outcome and results, or it stops because an operand
holds no value; it is never refused. -/

namespace Sys2Proof.Machine

/-- `withInput` goes on with IN or stops. -/
theorem withInput_some (s : State) (bytes : List Byte) (f : List Byte → Host.Outcome State Fault Refusal)
    (h : inputBytes s = some bytes) : withInput s f = f bytes := by simp [withInput, h]

theorem withOperand_some {α : Type} (o : Option α) (a : α) (f : α → Host.Outcome State Fault Refusal)
    (h : o = some a) : withOperand o f = f a := by simp [withOperand, h]

/-- The OLEN of a string of fewer than 65536 bytes is its length. -/
theorem olenOf_short (s : List Byte) (h : s.length < 65536) : olenOf s = BitVec.ofNat 16 s.length := by
  simp [olenOf, h]

/-- Emitting a string of fewer than 65536 bytes. -/
theorem emit_short (s : List Byte) (h : s.length < 65536) : Results.empty.emit s = emitted s := by
  simp [Results.emit, emitted, olenOf_short s h]

/-- The gates hold values exactly when each register of the array does. -/
theorem gateBytes_isSome (s : State) : (gateBytes s).isSome = true ↔ ∀ g : Fin 14, s.args.argGate[g] ≠ none := by
  unfold gateBytes; rw [allHeld_isSome]
  constructor
  · intro h g; exact h _ (by simp)
  · intro h o ho
    obtain ⟨k, hk, rfl⟩ := List.getElem_of_mem ho
    have hk' : k < 14 := by simpa using hk
    have := h ⟨k, hk'⟩
    simpa using this

theorem held_ne_none {w : Nat} (o : Option (BitVec w)) : held o ≠ none ↔ o ≠ none := by cases o <;> simp [held]

/-- What each operation reads, spelled out. -/
theorem operandsHeld_gates (s : State) : (∀ r, r ∈ gateRegs → readReg r s ≠ none) ↔ (gateBytes s).isSome = true := by
  rw [gateBytes_isSome]
  constructor
  · intro h g; exact (held_ne_none _).1 (h (.argGate g) (List.mem_map.2 ⟨g, List.mem_finRange g, rfl⟩))
  · intro h r hr
    obtain ⟨g, -, rfl⟩ := List.mem_map.1 hr
    exact (held_ne_none _).2 (h g)

/-- An operation that completes: the state before with a STATUS of completion and results, and nothing else changed. -/
def CompletedFrom (s t : State) : Prop :=
  ∃ code kind r, t = { s with status := statusDone code kind, res := r }

theorem completedFrom_finish (code : StatusCode) (kind : FrameKind) (r : Results) (s : State) :
    finish code kind r s = .next { s with status := statusDone code kind, res := r } := rfl

/-- The three ways an operation ends: a completion, or one of the two faults of R123. -/
inductive Ends (s : State) : Host.Outcome State Fault Refusal → Prop where
  | completes (code : StatusCode) (kind : FrameKind) (r : Results) : Ends s (finish code kind r s)
  | operand : Ends s (.fault .operandNoValue)
  | input : Ends s (.fault .inputNoValue)

theorem ends_withOperand {α : Type} (s : State) (o : Option α) (f : α → Host.Outcome State Fault Refusal)
    (h : ∀ a, Ends s (f a)) : Ends s (withOperand o f) := by
  cases o with
  | none => exact .operand
  | some a => exact h a

theorem ends_withInput (s : State) (f : List Byte → Host.Outcome State Fault Refusal)
    (h : ∀ a, Ends s (f a)) : Ends s (withInput s f) := by
  unfold withInput; split
  · exact h _
  · exact .input

/-- Every operation ends in one of these ways. -/
theorem exec_ends (i : Instr) (s : State) : Ends s (exec i s) := by
  cases i
  case decFrame =>
    refine ends_withInput s _ fun bytes => ?_
    cases envDecode bytes <;> exact .completes _ _ _
  case decAck =>
    refine ends_withInput s _ fun bytes => ?_
    cases envDecode bytes <;> exact .completes _ _ _
  case decTarget =>
    refine ends_withInput s _ fun bytes => ?_
    cases envDecode bytes with
    | target intra => cases h : intraDecode intra <;> simp only [h] <;> exact .completes _ _ _
    | noMatch => exact .completes _ _ _
    | err => exact .completes _ _ _
    | cmdAck => exact .completes _ _ _
  case encCmd => exact ends_withOperand s _ _ fun _ => ends_withInput s _ fun _ => .completes _ _ _
  case bldSetResolution => exact ends_withOperand s _ _ fun _ => .completes _ _ _
  case bldSetBasicParams =>
    exact ends_withOperand s _ _ fun _ => ends_withOperand s _ _ fun _ => ends_withOperand s _ _ fun _ =>
      ends_withOperand s _ _ fun _ => .completes _ _ _
  case bldSetMotionSens => exact ends_withOperand s _ _ fun _ => .completes _ _ _
  case bldSetStaticSens => exact ends_withOperand s _ _ fun _ => .completes _ _ _
  case bldSetBaud => exact ends_withOperand s _ _ fun _ => .completes _ _ _
  case bldBluetooth => exact ends_withOperand s _ _ fun _ => .completes _ _ _
  all_goals exact .completes _ _ _

/-- If an operation answers a next state, it is the state before with STATUS of a completion and new results. -/
theorem exec_next (i : Instr) (s t : State) (h : exec i s = .next t) : CompletedFrom s t := by
  have e := exec_ends i s
  rw [h] at e
  generalize ho : Host.Outcome.next t = o at e
  cases e with
  | completes code kind r => cases ho; exact ⟨code, kind, r, rfl⟩
  | operand => cases ho
  | input => cases ho

/-- No operation is refused. -/
theorem exec_ne_refused (i : Instr) (s : State) (r : Refusal) : exec i s ≠ .refused r := by
  intro h
  have e := exec_ends i s
  rw [h] at e
  generalize ho : Host.Outcome.refused r = o at e
  cases e <;> cases ho

/-- `operandFault` finds nothing exactly where everything the operation reads holds a value. -/
theorem operandFault_eq_none (i : Instr) (s : State) : operandFault i s = none ↔ OperandsHeld i s := by
  unfold operandFault OperandsHeld
  have h1 : regsHeld i s = true ↔ ∀ r, r ∈ operandRegs i → readReg r s ≠ none := by
    simp [regsHeld, Option.isSome_iff_ne_none]
  have h2 : inputHeld i s = true ↔ (readsInput i = true → ∀ k, k < s.ilen.toNat → s.ibuf.read k ≠ none) := by
    rw [← inputBytes_isSome]
    unfold inputHeld
    cases readsInput i <;> simp
  rw [← h1, ← h2]
  cases regsHeld i s <;> cases inputHeld i s <;> simp

end Sys2Proof.Machine
end

