-- ==== Sys2Proof/Laws/Builders.lean ====
section
/-! SUPPORT. What a completion leaves; the operands of the builders as numbers and bytes; and each builder as its command. -/

namespace Sys2Proof.Machine

/-- A completion with a STATUS value written out. -/
theorem completes_of_finish {i : Instr} {s : State} {code : StatusCode} {kind : FrameKind} {r : Results} {status : Byte}
    (h : exec i s = finish code kind r s) (hst : statusDone code kind = status) : Completes i s status r := by
  rw [Completes, h, ← hst]; rfl

/-- The CODE, results and KIND after a completion. -/
theorem finish_fields {code : StatusCode} {kind : FrameKind} {r : Results} {s t : State}
    (h : finish code kind r s = .next t) : t.code = codeBits code ∧ t.res = r ∧ t.kind = kindBits kind := by
  cases h; exact ⟨statusDone_code code kind, rfl, statusDone_kind code kind⟩

@[simp] theorem buildSelected_some (err : StatusCode) (c : Half) (p : List Byte) (s : State) :
    buildSelected err c (some p) s = build c p s := rfl
@[simp] theorem buildSelected_none (err : StatusCode) (c : Half) (s : State) :
    buildSelected err c none s = raise err .none s := rfl

/-- `BUILD` of a payload whose frame's length OLEN can hold. -/
theorem completes_of_build (i : Instr) (s : State) (c : Half) (p : List Byte) (h : exec i s = build c p s)
    (hl : p.length < 65524) : Completes i s 0x02#8 (emitted (wireCmd c p)) := by
  refine completes_of_finish (code := .ok) (kind := .none) ?_ (by decide)
  rw [h, build, cmdFrame_eq_wireCmd, emit_short _ (by simp; omega)]

theorem zeroExtend_eq_ofNat (p : BitVec 1) : p.zeroExtend 8 = BitVec.ofNat 8 p.toNat := by
  apply BitVec.eq_of_toNat_eq; simp

/-- The gate bytes are the fourteen registers in order. -/
theorem gateBytes_eq (s : State) (g : Vector Byte 14) (h : ∀ k : Fin 14, s.args.argGate[k] = some g[k]) : gateBytes s = some g.toList := by
  unfold gateBytes; rw [allHeld_eq_some]
  apply List.ext_getElem
  · simp
  · intro i h1 h2
    have := h ⟨i, by simpa using h1⟩
    simpa using this

theorem mem_of_lookup {α β} [BEq α] [LawfulBEq α] (l : List (α × β)) (a : α) (b : β) (h : l.lookup a = some b) : (a, b) ∈ l := by
  induction l with
  | nil => cases h
  | cons e l ih =>
    rw [List.lookup_cons] at h
    split at h
    · rename_i he; cases h; simp [eq_of_beq he]
    · simp [ih h]

theorem lookup_of_mem_nodup {α β} [BEq α] [LawfulBEq α] (l : List (α × β)) (a : α) (b : β) (hn : (l.map Prod.fst).Nodup) (h : (a, b) ∈ l) : l.lookup a = some b := by
  induction l with
  | nil => cases h
  | cons e l ih =>
    rw [List.lookup_cons]
    simp only [List.map_cons, List.nodup_cons] at hn
    rcases List.mem_cons.1 h with rfl | h
    · simp
    · split
      · rename_i he
        exact absurd (List.mem_map.2 ⟨(a,b), h, eq_of_beq he⟩) hn.1
      · exact ih hn.2 h

theorem lookup_eq_none_of_notMem {α β} [BEq α] [LawfulBEq α] (l : List (α × β)) (a : α) (h : ∀ b, (a, b) ∉ l) : l.lookup a = none := by
  cases hl : l.lookup a with
  | none => rfl
  | some b => exact absurd (mem_of_lookup _ _ _ hl) (h b)

/-- What each operation that reads no input does: it performs `BUILD` of its command, or it ends with an error or a fault. -/
theorem builder_cases (i : Instr) (s : State) (hi : readsInput i = false) :
   (∀ c p, builderCommand Config.params s i = some (c, p) → p.length ≤ 60 ∧ exec i s = build c p s ∧ c ∈ Config.params.wireOpcodes) ∧
    (builderCommand Config.params s i = none → ∀ t, exec i s = .next t → t.code ≠ 0#4 ∧ t.res = Results.empty) := by
  cases i <;> first | (exact absurd hi (by decide)) | skip
  case bldSetResolution =>
    simp only [builderCommand, exec, execBldSetResolution, withOperand, resCode]
    cases h : s.args.argRes with
    | none => exact ⟨by simp, by simp⟩
    | some sel =>
      simp only
      split
      · simp [opcSetResolution, Params.wireOpcodes]
      · split
        · simp [opcSetResolution, Params.wireOpcodes]
        · split
          · simp [opcSetResolution, Params.wireOpcodes]
          · refine ⟨by simp, fun _ t e => ?_⟩
            have := finish_fields e; rw [this.1, this.2.1]; exact ⟨by decide, rfl⟩
  case bldSetBaud =>
    simp only [builderCommand, exec, execBldSetBaud, withOperand, baudCode]
    cases h : s.args.argBaud with
    | none => exact ⟨by simp, by simp⟩
    | some v =>
      simp only
      cases hl : List.lookup v Config.params.baudTable with
      | some c0 =>
        simp [u16le, lo8_eq, hi8_eq, Params.wireOpcodes]
      | none =>
        refine ⟨by simp, fun _ t e => ?_⟩
        have := finish_fields e; rw [this.1, this.2.1]; exact ⟨by decide, rfl⟩
  case bldSetBasicParams =>
    simp only [builderCommand, exec, execBldSetBasicParams]
    cases h1 : s.args.argMin <;> cases h2 : s.args.argMax <;> cases h3 : s.args.argDur <;> cases h4 : s.args.argPol <;> simp only [withOperand, u16le, lo8_eq, hi8_eq, zeroExtend_eq_ofNat, List.cons_append, List.nil_append]
    case some.some.some.some => exact ⟨fun c p h => by cases h; exact ⟨by simp, rfl, by simp [Params.wireOpcodes]⟩, fun h => by cases h⟩
    all_goals exact ⟨fun c p h => (by cases h), fun _ t e => by cases e⟩
  case bldSetMotionSens =>
    simp only [builderCommand, exec, execBldSetMotionSens, gateBytes]
    cases h : allHeld s.args.argGate.toList with
    | none => simp [withOperand]
    | some g =>
      have := congrArg List.length ((allHeld_eq_some _ _).1 h)
      simp at this
      exact ⟨fun c p h => by cases h; exact ⟨by omega, rfl, by simp [Params.wireOpcodes]⟩, fun h => by cases h⟩
  case bldSetStaticSens =>
    simp only [builderCommand, exec, execBldSetStaticSens, gateBytes]
    cases h : allHeld s.args.argGate.toList with
    | none => simp [withOperand]
    | some g =>
      have := congrArg List.length ((allHeld_eq_some _ _).1 h)
      simp at this
      exact ⟨fun c p h => by cases h; exact ⟨by omega, rfl, by simp [Params.wireOpcodes]⟩, fun h => by cases h⟩
  case bldBluetooth =>
    simp only [builderCommand, exec, execBldBluetooth]
    cases h : s.args.argOn with
    | none => simp [withOperand]
    | some on =>
      refine ⟨fun c p h => ?_, fun h => by cases h⟩
      cases h
      refine ⟨?_, rfl, by simp [Params.wireOpcodes]⟩
      split <;> exact params_payload_le _ (by simp [Params.payloads])
  case bldEnableConfig => exact ⟨fun c p h => by cases h; exact ⟨by simp, rfl, by simp [Params.wireOpcodes, opcEnableConfig]⟩, fun h => by cases h⟩
  case bldEndConfig => exact ⟨fun c p h => by cases h; exact ⟨by simp, rfl, by simp [Params.wireOpcodes]⟩, fun h => by cases h⟩
  all_goals exact ⟨fun c p h => by cases h; exact ⟨params_payload_le _ (by simp [Params.payloads]), rfl, by simp [Params.wireOpcodes, opcFirmwareVersion]⟩, fun h => by cases h⟩

end Sys2Proof.Machine
end

