-- ==== Sys2Proof/Laws/Host.lean ====
section
/-! SUPPORT. Everything a host action and a step can do, said once each; and the register map and the register file. -/

namespace Sys2Proof.Machine

/-- Reading the index of a register finds the register. -/
theorem regAt_regIndex (r : RegName) : regAt (regIndex r) = some r := by
  have hg : ∀ g : Fin 14, regAt (regIndex (.argGate g)) = some (.argGate g) ∧
      regAt (regIndex (.tMGate g)) = some (.tMGate g) ∧ regAt (regIndex (.tSGate g)) = some (.tSGate g) := by decide
  cases r
  case argGate g => exact (hg g).1
  case tMGate g => exact (hg g).2.1
  case tSGate g => exact (hg g).2.2
  all_goals rfl

theorem gateAt_some (base n : Nat) (g : Fin 14) (h : gateAt base n = some g) : n = base + g.val := by
  unfold gateAt at h
  split at h
  · split at h
    · cases h; simp only; omega
    · cases h
  · cases h

/-- An assigned index is the index of the register found there. -/
theorem regIndex_of_regAt (n : Nat) (r : RegName) (h : regAt n = some r) : regIndex r = n := by
  unfold regAt at h
  split at h
  · rename_i r' hl
    cases h
    have key : ∀ l : List (Nat × RegName), (∀ e, e ∈ l → regIndex e.2 = e.1) → l.lookup n = some r → regIndex r = n := by
      intro l
      induction l with
      | nil => intro _ h; cases h
      | cons e l ih =>
        intro ha h
        rw [List.lookup_cons] at h
        split at h
        · rename_i he
          cases h
          rw [ha e (by simp)]; simpa using (beq_iff_eq.1 he).symm
        · exact ih (fun e he => ha e (by simp [he])) h
    exact key singleRegs (by decide) hl
  · split at h
    · rename_i g hg; cases h; exact (gateAt_some _ _ _ hg).symm
    · split at h
      · rename_i g hg; cases h; exact (gateAt_some _ _ _ hg).symm
      · split at h
        · rename_i g hg; cases h; exact (gateAt_some _ _ _ hg).symm
        · cases h

theorem held_ofNat {w v : Nat} (h : v < 2 ^ w) : held (some (BitVec.ofNat w v)) = some v := by
  simp [held, Nat.mod_eq_of_lt h]

/-- The register file: a written RW register reads the value, every other register reads as before. -/
theorem readReg_setReg (r r' : RegName) (v : Nat) (s : State) (hrw : regAccess r = .rw) (hv : v < 2 ^ regWidth r) :
    readReg r' (setReg r v s) = if r' = r then some v else readReg r' s := by
  by_cases h : r' = r
  · subst h
    rw [if_pos rfl]
    cases r' <;> first | (exact absurd (show Access.ro = Access.rw from hrw) (by decide)) | (exact absurd (show Access.w = Access.rw from hrw) (by decide)) | skip
    case ilen => simp only [setReg, readReg]; exact congrArg some (Nat.mod_eq_of_lt hv)
    case argGate g =>
      simp only [setReg, readReg, Fin.getElem_fin, Vector.getElem_set_self]; exact held_ofNat hv
    all_goals exact held_ofNat hv
  · rw [if_neg h]
    cases r <;> first | (exact absurd (show Access.ro = Access.rw from hrw) (by decide)) | (exact absurd (show Access.w = Access.rw from hrw) (by decide)) | skip
    case argGate g =>
      cases r' <;> first | rfl | skip
      rename_i g'
      have : g.val ≠ g'.val := fun e => h (by rw [Fin.ext e])
      simp only [setReg, readReg, Fin.getElem_fin, Vector.getElem_set_ne _ _ this]
    all_goals cases r' <;> first | rfl | exact absurd rfl h

/-- A START that goes through: the START event, with OP and all the operation reads in place. -/
theorem startOp_next (s t : State) (h : startOp s = .next t) :
    t = startEvent s ∧ ∃ w, s.op = some w ∧ ∀ i rest, decode [w] = .ok (i, rest) → OperandsHeld i s := by
  unfold startOp at h
  split at h
  · cases h
  · rename_i w hw
    split at h
    · rename_i e he
      cases h
      exact ⟨rfl, w, hw, fun i rest hd => by rw [he] at hd; cases hd⟩
    · rename_i i rest hd
      split at h
      · cases h
      · rename_i hf
        cases h
        refine ⟨rfl, w, hw, fun i' rest' hd' => ?_⟩
        rw [hd] at hd'; cases hd'
        exact (operandFault_eq_none _ _).1 hf

/-- A register write that goes through: an idle block, and CTRL = 0, a START, or one RW register set. -/
theorem writeReg_next (r : RegName) (v : Nat) (s t : State) (h : writeReg r v s = .next t) :
    s.busy = false ∧
    ((r = .ctrl ∧ v = 0 ∧ t = s) ∨ (r = .ctrl ∧ v = 1 ∧ startOp s = .next t) ∨
     (regAccess r = .rw ∧ v < 2 ^ regWidth r ∧ (r = .ilen → v ≤ Config.params.ibufCap) ∧ t = setReg r v s)) := by
  unfold writeReg at h
  split at h
  · cases h
  split at h
  · cases h
  rename_i hro hb
  have hb : s.busy = false := by simpa using hb
  split at h
  · cases h
  rename_i hw
  split at h
  · rename_i hc
    unfold writeCtrl at h
    split at h
    · cases h
    split at h
    · rename_i h1; exact ⟨hb, .inr (.inl ⟨hc, h1, h⟩)⟩
    · cases h; exact ⟨hb, .inl ⟨hc, by omega, rfl⟩⟩
  · rename_i hc
    split at h
    · cases h
    · rename_i hi
      cases h
      refine ⟨hb, .inr (.inr ⟨?_, by omega, fun e => ?_, rfl⟩)⟩
      · cases r <;> first | rfl | (exact absurd rfl hro) | (exact absurd rfl hc)
      · exact Nat.le_of_not_lt fun hlt => hi ⟨e, hlt⟩

/-- A host write that goes through: a register write, or one byte of IBUF within its capacity. -/
theorem hostWrite_next (sp : Space) (n v : Nat) (s t : State) (h : hostWrite sp n v s = .next t) :
    (∃ r, sp = .reg ∧ regAt n = some r ∧ writeReg r v s = .next t) ∨
    (sp = .ibuf ∧ n < Config.params.ibufCap ∧ s.busy = false ∧ v < 256 ∧
      t = { s with ibuf := s.ibuf.write n (BitVec.ofNat 8 v) }) := by
  unfold hostWrite at h
  cases sp with
  | reg =>
    simp only at h
    split at h
    · cases h
    · rename_i r hr; exact .inl ⟨r, rfl, hr, h⟩
  | ibuf =>
    simp only at h
    split at h
    · cases h
    split at h
    · cases h
    split at h
    · cases h
    rename_i h1 h2 h3
    cases h
    exact .inr ⟨rfl, by omega, by simpa using h2, by omega, rfl⟩
  | obuf => simp only at h; split at h <;> cases h

/-- A host read that goes through: the value that stands there is received, and nothing else changes. -/
theorem hostRead_next (sp : Space) (n : Nat) (s t : State) (h : hostRead sp n s = .next t) :
    ∃ v, placeValue sp n s = some (some v) ∧ t = received sp n v s := by
  unfold hostRead at h
  split at h
  · cases h
  · cases h
  · rename_i v hv; cases h; exact ⟨v, hv, rfl⟩

/-- What the host's turn can do when it goes through. -/
inductive TurnTo (s : State) : State → Prop where
  | nothing : s.host = [] → TurnTo s s
  | skipped (rest : List HostAction) : TurnTo s { s with host := rest }
  | received (rest : List HostAction) (sp : Space) (n v : Nat) : TurnTo s (received sp n v { s with host := rest })
  | resetDone (rest : List HostAction) : s.host = .reset :: rest → TurnTo s (resetEvent { s with host := rest })
  | started (rest : List HostAction) (w : Byte) :
      s.busy = false → s.op = some w → (∀ i r, decode [w] = .ok (i, r) → OperandsHeld i s) →
      TurnTo s (startEvent { s with host := rest })
  | register (rest : List HostAction) (r : RegName) (v : Nat) :
      s.busy = false → regAccess r = .rw → v < 2 ^ regWidth r → (r = .ilen → v ≤ Config.params.ibufCap) →
      TurnTo s (setReg r v { s with host := rest })
  | inputByte (rest : List HostAction) (n v : Nat) :
      s.busy = false → n < Config.params.ibufCap → v < 256 →
      TurnTo s { s with host := rest, ibuf := s.ibuf.write n (BitVec.ofNat 8 v) }

/-- What an operation reads does not depend on the host's pending actions. -/
theorem operandsHeld_host (i : Instr) (s : State) (l : List HostAction) (h : OperandsHeld i { s with host := l }) :
    OperandsHeld i s := by
  obtain ⟨h1, h2⟩ := h
  exact ⟨fun r hr => by have := h1 r hr; cases r <;> exact this, h2⟩

/-- Every host turn that goes through is one of these. -/
theorem hostTurn_next (s t : State) (h : hostTurn s = .next t) : TurnTo s t := by
  unfold hostTurn at h
  split at h
  · rename_i hn; cases h; exact .nothing hn
  · rename_i a rest hh
    cases a with
    | write sp n v =>
      rcases hostWrite_next sp n v _ t h with ⟨r, -, -, hw⟩ | ⟨-, hn, hb, hv, rfl⟩
      · obtain ⟨hb, ⟨-, -, rfl⟩ | ⟨-, -, hs⟩ | ⟨hrw, hv, hi, rfl⟩⟩ := writeReg_next r v _ t hw
        · exact .skipped rest
        · obtain ⟨rfl, w, hw, ho⟩ := startOp_next _ _ hs
          exact .started rest w hb hw fun i r hd => operandsHeld_host i s rest (ho i r hd)
        · exact .register rest r v hb hrw hv hi
      · exact .inputByte rest n v hb hn hv
    | read sp n =>
      obtain ⟨v, -, rfl⟩ := hostRead_next sp n _ t h
      exact .received rest sp n v
    | wait =>
      simp only [hostAct] at h
      cases h
      split
      · exact .received rest _ _ _
      · exact .received s.host _ _ _
    | reset => cases h; exact .resetDone rest hh
    | idle => cases h; exact .skipped rest

/-- A step: the completion, a step before it with the host's turn, or the host's turn alone. -/
theorem step_cases (s : State) :
    (s.busy = true ∧ s.left = 0 ∧ step s = completeOp s) ∨
    (∃ k, s.busy = true ∧ s.left = k + 1 ∧ step s = hostTurn { s with left := k }) ∨
    (s.busy = false ∧ step s = hostTurn s) := by
  unfold step machineStep
  cases hb : s.busy with
  | false => exact .inr (.inr ⟨rfl, by simp⟩)
  | true =>
    cases hl : s.left with
    | zero => exact .inl ⟨rfl, rfl, by simp⟩
    | succ k => exact .inr (.inl ⟨k, rfl, rfl, by simp⟩)

/-- While no operation is in progress a step is the host's turn. -/
theorem step_idle (s : State) (hb : s.busy = false) : step s = hostTurn s := by
  simp [step, machineStep, hb]

/-- A step that is the host's turn: the codec's tick, then the host's action. -/
theorem step_of_hostActs (s : State) (a : HostAction) (rest : List HostAction) (h : HostActs s a rest) :
    step s = hostAct a rest s.ticked := by
  obtain ⟨h1, h2⟩ := h
  cases hb : s.busy with
  | false => simp [step, machineStep, hb, hostTurn, h1, State.ticked]
  | true =>
    obtain ⟨k, hk⟩ := Nat.exists_eq_succ_of_ne_zero (h2 hb)
    simp [step, machineStep, hb, hk, hostTurn, h1, State.ticked]

@[simp] theorem ticked_busy (s : State) : s.ticked.busy = s.busy := by unfold State.ticked; split <;> rfl
@[simp] theorem ticked_ibuf (s : State) : s.ticked.ibuf = s.ibuf := by unfold State.ticked; split <;> rfl
@[simp] theorem ticked_res (s : State) : s.ticked.res = s.res := by unfold State.ticked; split <;> rfl
@[simp] theorem ticked_reads (s : State) : s.ticked.reads = s.reads := by unfold State.ticked; split <;> rfl
@[simp] theorem ticked_draws (s : State) : s.ticked.draws = s.draws := by unfold State.ticked; split <;> rfl

/-- A register holds the same whatever the host has still to do. -/
@[simp] theorem readReg_host (r : RegName) (s : State) (l : List HostAction) :
    readReg r { s with host := l } = readReg r s := by cases r <;> rfl

@[simp] theorem readReg_ticked (r : RegName) (s : State) : readReg r s.ticked = readReg r s := by
  unfold State.ticked; split <;> cases r <;> rfl

/-- A completion step that goes through ends an operation. -/
theorem completeOp_next (s t : State) (h : completeOp s = .next t) : CompletedFrom s t := by
  unfold completeOp at h
  split at h
  · cases h
  · split at h
    · cases h; exact ⟨_, _, _, rfl⟩
    · exact exec_next _ _ _ h

end Sys2Proof.Machine
end

