-- ==== Sys2Proof/Laws/Target.lean ====
section
/-! SUPPORT. The intraframe decode on each shape of an intraframe, and byte strings of the two target-byte counts. -/

namespace Sys2Proof.Machine

theorem le16_eq_ofNat (lo hi : Byte) : le16 lo hi = BitVec.ofNat 16 (lo.toNat + 256 * hi.toNat) := by
  apply BitVec.eq_of_toNat_eq; rw [le16_toNat]; simp; have := lo.isLt; have := hi.isLt; omega

/-- A basic intraframe with a legal state byte decodes to its fields. -/
theorem intraDecode_basic (st mLo mHi mEn sLo sHi sEn calib : Byte) (hst : st.toNat ≤ 6) :
    intraDecode (basicIntra st mLo mHi mEn sLo sHi sEn calib) =
      .ok ⟨st, le16 mLo mHi, mEn, le16 sLo sHi, sEn⟩ none calib := by
  simp [intraDecode, basicIntra, byteAt, targetByteCount, slice, basicDecode]; omega

/-- The shape test of R106 passes exactly on a datatype, the head marker, target bytes, the tail marker and a calibration byte. -/
theorem intraShape_iff (t : List Byte) :
    (¬ (t.length < 4) ∧ byteAt t 1 = 0xAA#8 ∧ byteAt t (t.length - 2) = 0x55#8) ↔
      ∃ d tb c, t = [d, 0xAA#8] ++ tb ++ [0x55#8, c] := by
  constructor
  · rintro ⟨h1, h2, h3⟩
    match t, h1 with
    | d :: a :: r, h1 =>
      have h2' : a = 0xAA#8 := h2
      subst h2'
      have hr : 2 ≤ r.length := by simp at h1; omega
      refine ⟨d, r.take (r.length - 2), r.getD (r.length - 1) 0, ?_⟩
      have e1 : r = r.take (r.length - 2) ++ r.drop (r.length - 2) := (List.take_append_drop _ _).symm
      have e2 : r.drop (r.length - 2) = [0x55#8, r.getD (r.length - 1) 0] := by
        apply List.ext_getElem?
        intro i
        rw [List.getElem?_drop]
        have h3' : r[r.length - 2]? = some 0x55#8 := by
          simp only [byteAt, List.length_cons, List.getD_eq_getElem?_getD] at h3
          rw [show r.length + 1 + 1 - 2 = (r.length - 2) + 2 by omega] at h3
          simp only [List.getElem?_cons_succ] at h3
          rw [List.getElem?_eq_getElem (by omega)] at h3 ⊢
          simpa using h3
        match i with
        | 0 => simpa using h3'
        | 1 => simp only [List.getD_eq_getElem?_getD]; rw [show r.length - 2 + 1 = r.length - 1 by omega, List.getElem?_eq_getElem (by omega)]; simp
        | i+2 => simp; omega
      simp only [List.cons_append, List.nil_append, List.cons.injEq, true_and]
      rw [← e2]; exact e1
    | [], h1 => simp at h1
    | [_], h1 => simp at h1
  · rintro ⟨d, tb, c, rfl⟩
    simp [byteAt]

/-- The intraframe decode of a well-shaped intraframe. -/
theorem intraDecode_shaped (d : Byte) (tb : List Byte) (c : Byte) :
   intraDecode ([d, 0xAA#8] ++ tb ++ [0x55#8, c]) = (match targetByteCount d with
    | none => .err .unknownDiscriminator
    | some need => if tb.length ≠ need then .err .frameMalformed
      else if 0x06 < (byteAt tb 0).toNat then .err .unknownTargetState
      else .ok (basicDecode (slice tb 0 7)) (if d = 0x01#8 then some (engDecode (slice tb 7 38)) else none) c) := by
  have hs := (intraShape_iff ([d, 0xAA#8] ++ tb ++ [0x55#8, c])).2 ⟨d, tb, c, rfl⟩
  have e : slice ([d, 0xAA#8] ++ tb ++ [0x55#8, c]) 2 (([d, 0xAA#8] ++ tb ++ [0x55#8, c]).length - 2) = tb := by simp [slice]
  have e0 : byteAt ([d, 0xAA#8] ++ tb ++ [0x55#8, c]) 0 = d := rfl
  have el : byteAt ([d, 0xAA#8] ++ tb ++ [0x55#8, c]) (([d, 0xAA#8] ++ tb ++ [0x55#8, c]).length - 1) = c := by simp [byteAt]
  unfold intraDecode
  rw [if_neg hs.1, if_neg (by rw [hs.2.1, hs.2.2]; decide), e0, e, el]
  have e4 : ([d, 0xAA#8] ++ tb ++ [0x55#8, c]).length - 4 = tb.length := by simp
  rw [e4]
  all_goals (cases targetByteCount d <;> rfl)

/-- The intraframe decode of any other byte string. -/
theorem intraDecode_unshaped (t : List Byte) (h : ∀ d tb c, t ≠ [d, 0xAA#8] ++ tb ++ [0x55#8, c]) : intraDecode t = .err .frameMalformed := by
  unfold intraDecode
  split
  · rfl
  · split
    · rfl
    · rename_i h1 h2
      simp only [ne_eq, not_or, Decidable.not_not] at h2
      obtain ⟨d, tb, c, e⟩ := (intraShape_iff t).1 ⟨h1, h2⟩
      exact absurd e (h d tb c)

/-- A byte of the part of a string behind the first bytes. -/
theorem byteAt_append_right (l r : List Byte) (k : Nat) : byteAt (l ++ r) (l.length + k) = byteAt r k := by
  simp [byteAt, List.getElem?_append_right]

/-- A byte of a vector that stands at the front of a string. -/
theorem byteAt_vector (v : Vector Byte 14) (r : List Byte) (g : Nat) (hg : g < 14) : byteAt (v.toList ++ r) g = v[g] := by
  simp [byteAt, List.getElem?_append_left, hg]

/-- The 31 engineering bytes of R108 decode to their fields. -/
theorem engDecode_bytes (b1 b2 : Byte) (mg sg : Vector Byte 14) (light : Byte) :
    engDecode ([b1, b2] ++ (mg.toList ++ (sg.toList ++ [light]))) = ⟨b1, b2, mg, sg, light⟩ := by
  have hm : ∀ k, byteAt ([b1, b2] ++ (mg.toList ++ (sg.toList ++ [light]))) (2 + k) =
      byteAt (mg.toList ++ (sg.toList ++ [light])) k := byteAt_append_right [b1, b2] _
  have hs : ∀ k, byteAt (mg.toList ++ (sg.toList ++ [light])) (14 + k) = byteAt (sg.toList ++ [light]) k := by
    intro k; simpa using byteAt_append_right mg.toList (sg.toList ++ [light]) k
  have hl : byteAt (sg.toList ++ [light]) 14 = light := by simp [byteAt]
  have gates : (Vector.ofFn fun g : Fin 14 => byteAt ([b1, b2] ++ (mg.toList ++ (sg.toList ++ [light]))) (2 + g.val)) = mg := by
    ext k hk : 1
    simp only [Vector.getElem_ofFn]
    rw [hm, byteAt_vector mg _ k hk]
  have stat : (Vector.ofFn fun g : Fin 14 => byteAt ([b1, b2] ++ (mg.toList ++ (sg.toList ++ [light]))) (16 + g.val)) = sg := by
    ext k hk : 1
    simp only [Vector.getElem_ofFn]
    rw [show 16 + k = 2 + (14 + k) by omega, hm, hs, byteAt_vector sg _ k hk]
  have lite : byteAt ([b1, b2] ++ (mg.toList ++ (sg.toList ++ [light]))) 30 = light := (hm 28).trans ((hs 14).trans hl)
  unfold engDecode
  rw [gates, stat, lite]
  rfl

/-- An extended intraframe with a legal state byte decodes to its fields. -/
theorem intraDecode_extended (st mLo mHi mEn sLo sHi sEn b1 b2 : Byte) (mg sg : Vector Byte 14) (light calib : Byte)
    (hst : st.toNat ≤ 6) :
    intraDecode (extendedIntra st mLo mHi mEn sLo sHi sEn b1 b2 mg sg light calib) =
      .ok ⟨st, le16 mLo mHi, mEn, le16 sLo sHi, sEn⟩ (some ⟨b1, b2, mg, sg, light⟩) calib := by
  have e : extendedIntra st mLo mHi mEn sLo sHi sEn b1 b2 mg sg light calib =
      [0x01#8, 0xAA#8] ++ ([st, mLo, mHi, mEn, sLo, sHi, sEn] ++ ([b1, b2] ++ (mg.toList ++ (sg.toList ++ [light])))) ++
        [0x55#8, calib] := by simp [extendedIntra]
  have basic : slice ([st, mLo, mHi, mEn, sLo, sHi, sEn] ++ ([b1, b2] ++ (mg.toList ++ (sg.toList ++ [light])))) 0 7 =
      [st, mLo, mHi, mEn, sLo, sHi, sEn] := rfl
  have eng : slice ([st, mLo, mHi, mEn, sLo, sHi, sEn] ++ ([b1, b2] ++ (mg.toList ++ (sg.toList ++ [light])))) 7 38 =
      [b1, b2] ++ (mg.toList ++ (sg.toList ++ [light])) := by
    refine List.take_of_length_le ?_
    simp
  rw [e, intraDecode_shaped, basic, eng, engDecode_bytes]
  have state : byteAt ([st, mLo, mHi, mEn, sLo, sHi, sEn] ++ ([b1, b2] ++ (mg.toList ++ (sg.toList ++ [light])))) 0 = st := rfl
  rw [state]
  have hh : ¬ 0x06 < st.toNat := by omega
  simp [targetByteCount, hh, basicDecode, byteAt]

/-- The seven target bytes of a basic report. -/
theorem seven_bytes (tb : List Byte) (h : tb.length = 7) : ∃ a b c d e f g, tb = [a,b,c,d,e,f,g] := by
  match tb, h with
  | [a,b,c,d,e,f,g], _ => exact ⟨a,b,c,d,e,f,g,rfl⟩

/-- The 38 target bytes of an extended report. -/
theorem thirtyeight_bytes (tb : List Byte) (h : tb.length = 38) :
    ∃ a b c d e f g b1 b2, ∃ mg sg : Vector Byte 14, ∃ l,
      tb = [a, b, c, d, e, f, g, b1, b2] ++ mg.toList ++ sg.toList ++ [l] := by
  obtain ⟨a, b, c, d, e, f, g, hh⟩ := seven_bytes (tb.take 7) (by simp; omega)
  refine ⟨a, b, c, d, e, f, g, tb[7], tb[8], ⟨((tb.drop 9).take 14).toArray, by simp; omega⟩,
    ⟨((tb.drop 23).take 14).toArray, by simp; omega⟩, tb[37], ?_⟩
  have basic : tb = tb.take 7 ++ tb.drop 7 := (List.take_append_drop 7 tb).symm
  have diag : tb.drop 7 = [tb[7], tb[8]] ++ tb.drop 9 := by
    rw [List.drop_eq_getElem_cons (by omega), List.drop_eq_getElem_cons (by omega)]; rfl
  have moving : tb.drop 9 = (tb.drop 9).take 14 ++ tb.drop 23 := by
    have := (List.take_append_drop 14 (tb.drop 9)).symm; rwa [List.drop_drop] at this
  have stationary : tb.drop 23 = (tb.drop 23).take 14 ++ tb.drop 37 := by
    have := (List.take_append_drop 14 (tb.drop 23)).symm; rwa [List.drop_drop] at this
  have light : tb.drop 37 = [tb[37]] := by
    rw [List.drop_eq_getElem_cons (by omega), List.drop_eq_nil_of_le (by omega)]
  have tail := diag.trans (congrArg _ (moving.trans (congrArg _ (stationary.trans (congrArg _ light)))))
  refine (basic.trans ((congrArg (· ++ tb.drop 7) hh).trans (congrArg _ tail))).trans ?_
  simp only [List.append_assoc, List.cons_append, List.nil_append]
  rfl

end Sys2Proof.Machine
end

