-- ==== Sys2Proof/Laws/Outcome.lean ====
section
/-! SUPPORT. Which outcomes each operation can complete with, said once; and that the empty results are consistent. -/

namespace Sys2Proof.Machine

/-- The errors of the envelope decode. -/
theorem envDecode_err (s : List Byte) (code : StatusCode) (kind : FrameKind) (h : envDecode s = .err code kind) :
    (code = .frameMalformed ∨ code = .lengthMismatch) ∧ kind ≠ .none := by
  unfold envDecode at h
  repeat' split at h
  all_goals first | (cases h; exact ⟨by simp, by simp⟩) | cases h

/-- The errors of the intraframe decode. -/
theorem intraDecode_err (t : List Byte) (code : StatusCode) (h : intraDecode t = .err code) :
    code = .frameMalformed ∨ code = .unknownDiscriminator ∨ code = .unknownTargetState := by
  unfold intraDecode at h
  repeat' split at h
  all_goals first | (cases h; simp; done) | cases h

/-- Which outcome other than OK each operation can complete with, and with which kind. -/
inductive NotOk : Instr → StatusCode → FrameKind → Prop where
  | notRecognized : NotOk .decFrame .notRecognized .none
  | frame (code : StatusCode) (kind : FrameKind) :
      code = .frameMalformed ∨ code = .lengthMismatch → kind ≠ .none → NotOk .decFrame code kind
  | ackNoPair : NotOk .decAck .frameMalformed .none
  | ack (code : StatusCode) (kind : FrameKind) :
      code = .frameMalformed ∨ code = .lengthMismatch → kind ≠ .none → NotOk .decAck code kind
  | targetNoPair : NotOk .decTarget .frameMalformed .none
  | target (code : StatusCode) (kind : FrameKind) :
      code = .frameMalformed ∨ code = .lengthMismatch → kind ≠ .none → NotOk .decTarget code kind
  | intra (code : StatusCode) :
      code = .unknownDiscriminator ∨ code = .unknownTargetState → NotOk .decTarget code .target
  | baud : NotOk .bldSetBaud .unknownBaudRate .none
  | resolution : NotOk .bldSetResolution .invalidOperand .none

/-- A completion is OK with some results, or one of these outcomes with none. -/
inductive CompletesAs (i : Instr) (s t : State) : Prop where
  | ok (kind : FrameKind) (r : Results) : finish .ok kind r s = .next t → CompletesAs i s t
  | notOk (code : StatusCode) (kind : FrameKind) :
      finish code kind Results.empty s = .next t → NotOk i code kind → CompletesAs i s t

theorem withInput_next (s t : State) (f : List Byte → Host.Outcome State Fault Refusal) (h : withInput s f = .next t) :
    ∃ bytes, inputBytes s = some bytes ∧ f bytes = .next t := by
  unfold withInput at h; split at h
  · exact ⟨_, by assumption, h⟩
  · cases h

theorem withOperand_next {α : Type} (o : Option α) (f : α → Host.Outcome State Fault Refusal) (t : State)
    (h : withOperand o f = .next t) : ∃ a, o = some a ∧ f a = .next t := by
  unfold withOperand at h; split at h
  · exact ⟨_, rfl, h⟩
  · cases h

/-- Every completion of every operation is one of these. -/
theorem exec_completesAs (i : Instr) (s t : State) (e : exec i s = .next t) : CompletesAs i s t := by
  cases i
  case decFrame =>
    obtain ⟨b, -, h⟩ := withInput_next _ _ _ e
    cases hd : envDecode b with
    | noMatch => rw [hd] at h; exact .notOk _ _ h .notRecognized
    | err c k => rw [hd] at h; exact .notOk _ _ h (.frame _ _ (envDecode_err _ _ _ hd).1 (envDecode_err _ _ _ hd).2)
    | cmdAck => rw [hd] at h; exact .ok _ _ h
    | target => rw [hd] at h; exact .ok _ _ h
  case decAck =>
    obtain ⟨b, -, h⟩ := withInput_next _ _ _ e
    cases hd : envDecode b with
    | noMatch => rw [hd] at h; exact .notOk _ _ h .ackNoPair
    | err c k => rw [hd] at h; exact .notOk _ _ h (.ack _ _ (envDecode_err _ _ _ hd).1 (envDecode_err _ _ _ hd).2)
    | cmdAck => rw [hd] at h; exact .ok _ _ h
    | target => rw [hd] at h; exact .notOk _ _ h (.ack _ _ (.inl rfl) (by simp))
  case decTarget =>
    obtain ⟨b, -, h⟩ := withInput_next _ _ _ e
    cases hd : envDecode b with
    | noMatch => rw [hd] at h; exact .notOk _ _ h .targetNoPair
    | err c k => rw [hd] at h; exact .notOk _ _ h (.target _ _ (envDecode_err _ _ _ hd).1 (envDecode_err _ _ _ hd).2)
    | cmdAck => rw [hd] at h; exact .notOk _ _ h (.target _ _ (.inl rfl) (by simp))
    | target v =>
      simp only [hd] at h
      cases hi : intraDecode v with
      | err c =>
        rw [hi] at h
        rcases intraDecode_err _ _ hi with rfl | hc
        · exact .notOk _ _ h (.target _ _ (.inl rfl) (by simp))
        · exact .notOk _ _ h (.intra _ hc)
      | ok => rw [hi] at h; exact .ok _ _ h
  case encCmd =>
    obtain ⟨_, -, h⟩ := withOperand_next _ _ _ e
    obtain ⟨_, -, h⟩ := withInput_next _ _ _ h
    exact .ok _ _ h
  case bldSetResolution =>
    obtain ⟨a, -, h⟩ := withOperand_next _ _ _ e
    cases hr : resCode Config.params a with
    | none => rw [hr] at h; exact .notOk _ _ h .resolution
    | some => rw [hr] at h; exact .ok _ _ h
  case bldSetBaud =>
    obtain ⟨a, -, h⟩ := withOperand_next _ _ _ e
    cases hr : baudCode Config.params a with
    | none => rw [hr] at h; exact .notOk _ _ h .baud
    | some => rw [hr] at h; exact .ok _ _ h
  case bldSetBasicParams =>
    obtain ⟨_, -, h⟩ := withOperand_next _ _ _ e
    obtain ⟨_, -, h⟩ := withOperand_next _ _ _ h
    obtain ⟨_, -, h⟩ := withOperand_next _ _ _ h
    obtain ⟨_, -, h⟩ := withOperand_next _ _ _ h
    exact .ok _ _ h
  case bldSetMotionSens => obtain ⟨_, -, h⟩ := withOperand_next _ _ _ e; exact .ok _ _ h
  case bldSetStaticSens => obtain ⟨_, -, h⟩ := withOperand_next _ _ _ e; exact .ok _ _ h
  case bldBluetooth => obtain ⟨_, -, h⟩ := withOperand_next _ _ _ e; exact .ok _ _ h
  all_goals exact .ok _ _ e

theorem results_empty_gates : ∀ g : Fin 14, Results.empty.tMGate[g] = none ∧ Results.empty.tSGate[g] = none := by decide

/-- The empty results are consistent. -/
theorem results_empty_ok : Results.empty.Ok where
  emittedString := ⟨[], rfl, by simp, .inr ⟨rfl, rfl⟩⟩
  stateCode := fun _ h => nomatch h
  engineering := .inr ⟨by decide, rfl, rfl, rfl, results_empty_gates⟩

/-- Results that hold an emitted string within the capacity and no report are consistent. -/
theorem results_emit_ok (o : Option Half) (bytes : List Byte) (h : bytes.length ≤ Config.params.obufCap) :
    ({ Results.empty with rOpcode := o } : Results).emit bytes |>.Ok where
  emittedString := ⟨bytes, rfl, h, .inl rfl⟩
  stateCode := fun _ h => nomatch h
  engineering := .inr ⟨(show (none : Option (BitVec 1)) ≠ some 1#1 from fun h => nomatch h), rfl, rfl, rfl,
    results_empty_gates⟩

end Sys2Proof.Machine
end

