-- ==== Sys2Proof/Laws/PerInstr.lean ====
section
/-! SUPPORT. Statements about each operation as syntax, one lemma per operation. -/

namespace Sys2Proof.Laws.OpCode

/-- The operation's one byte decodes to it and leaves what follows, and the bits of its table row give it. -/
def Statement (i : Instr) : Prop :=
  i.wf = true ∧ (∀ rest, decode (encode i ++ rest) = .ok (i, rest)) ∧ decodeTableWord 8 (opcodeOf i).toNat = some i

theorem decFrame : Statement .decFrame := ⟨rfl, fun _ => rfl, rfl⟩
theorem decAck : Statement .decAck := ⟨rfl, fun _ => rfl, rfl⟩
theorem decTarget : Statement .decTarget := ⟨rfl, fun _ => rfl, rfl⟩
theorem encCmd : Statement .encCmd := ⟨rfl, fun _ => rfl, rfl⟩
theorem bldEnableConfig : Statement .bldEnableConfig := ⟨rfl, fun _ => rfl, rfl⟩
theorem bldEndConfig : Statement .bldEndConfig := ⟨rfl, fun _ => rfl, rfl⟩
theorem bldSetResolution : Statement .bldSetResolution := ⟨rfl, fun _ => rfl, rfl⟩
theorem bldSetBasicParams : Statement .bldSetBasicParams := ⟨rfl, fun _ => rfl, rfl⟩
theorem bldSetMotionSens : Statement .bldSetMotionSens := ⟨rfl, fun _ => rfl, rfl⟩
theorem bldSetStaticSens : Statement .bldSetStaticSens := ⟨rfl, fun _ => rfl, rfl⟩
theorem bldSetBaud : Statement .bldSetBaud := ⟨rfl, fun _ => rfl, rfl⟩
theorem bldBluetooth : Statement .bldBluetooth := ⟨rfl, fun _ => rfl, rfl⟩
theorem bldReadMac : Statement .bldReadMac := ⟨rfl, fun _ => rfl, rfl⟩
theorem bldLightSensorMode : Statement .bldLightSensorMode := ⟨rfl, fun _ => rfl, rfl⟩
theorem bldFactoryReset : Statement .bldFactoryReset := ⟨rfl, fun _ => rfl, rfl⟩
theorem bldReboot : Statement .bldReboot := ⟨rfl, fun _ => rfl, rfl⟩
theorem bldFirmwareVersion : Statement .bldFirmwareVersion := ⟨rfl, fun _ => rfl, rfl⟩
theorem bldBgcorrEnter : Statement .bldBgcorrEnter := ⟨rfl, fun _ => rfl, rfl⟩
theorem bldBgcorrRead : Statement .bldBgcorrRead := ⟨rfl, fun _ => rfl, rfl⟩
theorem bldReadResolution : Statement .bldReadResolution := ⟨rfl, fun _ => rfl, rfl⟩
theorem bldReadBasicParams : Statement .bldReadBasicParams := ⟨rfl, fun _ => rfl, rfl⟩
theorem bldReadMotionSens : Statement .bldReadMotionSens := ⟨rfl, fun _ => rfl, rfl⟩
theorem bldReadStaticSens : Statement .bldReadStaticSens := ⟨rfl, fun _ => rfl, rfl⟩
theorem bldEngModeOn : Statement .bldEngModeOn := ⟨rfl, fun _ => rfl, rfl⟩
theorem bldEngModeOff : Statement .bldEngModeOff := ⟨rfl, fun _ => rfl, rfl⟩
theorem bldReadLightSensor : Statement .bldReadLightSensor := ⟨rfl, fun _ => rfl, rfl⟩

end Sys2Proof.Laws.OpCode
end

