-- ==== Sys2Proof/Laws/Place.lean ====
section
/-! SUPPORT. An operation placed for the next step: what placing writes, and that it gives the operation all it reads. -/

namespace Sys2Proof.Machine

theorem readReg_giveReg (s : State) (r r' : RegName) (hrw : regAccess r = .rw) :
    readReg r' (giveReg s r) = if r' = r ∧ readReg r' s = none then some 0 else readReg r' s := by
  unfold giveReg
  split
  · rw [readReg_setReg r r' 0 s hrw (Nat.two_pow_pos _)]
    by_cases e : r' = r <;> simp_all
  · by_cases e : r' = r <;> simp_all

/-- Giving registers values: each of them that held none reads 0, every other register reads as before. -/
theorem readReg_giveRegs (l : List RegName) (s : State) (r' : RegName) (hl : ∀ r, r ∈ l → regAccess r = .rw) :
    readReg r' (l.foldl giveReg s) = if r' ∈ l ∧ readReg r' s = none then some 0 else readReg r' s := by
  induction l generalizing s with
  | nil => simp
  | cons r l ih =>
    rw [List.foldl_cons, ih _ fun q hq => hl q (List.mem_cons_of_mem _ hq),
      readReg_giveReg s r r' (hl r List.mem_cons_self)]
    by_cases e : r' = r <;> by_cases n : readReg r' s = none <;> simp_all

/-- Giving bytes of IBUF values: each of them that held none reads 0, every other byte reads as before. -/
theorem read_giveBytes (l : List Nat) (s : State) (a : Nat) :
    (l.foldl giveByte s).ibuf.read a = if a ∈ l ∧ s.ibuf.read a = none then some 0x00#8 else s.ibuf.read a := by
  induction l generalizing s with
  | nil => simp
  | cons k l ih =>
    rw [List.foldl_cons, ih]
    unfold giveByte
    split
    · simp only [read_write]
      by_cases e : a = k <;> simp_all
    · by_cases e : a = k <;> simp_all

/-- A register an operation reads is one of the host's operand registers. -/
theorem operandRegs_rw (i : Instr) (r : RegName) (h : r ∈ operandRegs i) : regAccess r = .rw := by
  have all : ∀ q, q ∈ operandRegs i → regAccess q = .rw := by cases i <;> decide
  exact all r h

/-- Writing an operand register writes nothing but the operand registers. -/
theorem setReg_operand (i : Instr) (r : RegName) (v : Nat) (s : State) (h : r ∈ operandRegs i) :
    setReg r v s = { s with args := (setReg r v s).args } := by
  have other : RegName.op ∉ operandRegs i ∧ RegName.ilen ∉ operandRegs i := by cases i <;> decide
  cases r <;> first | rfl | exact absurd h other.1 | exact absurd h other.2

theorem giveReg_only (i : Instr) (r : RegName) (s : State) (h : r ∈ operandRegs i) :
    giveReg s r = { s with args := (giveReg s r).args } := by
  unfold giveReg
  split
  · exact setReg_operand i r 0 s h
  · rfl

theorem giveRegs_only (i : Instr) (l : List RegName) (s : State) (hl : ∀ r, r ∈ l → r ∈ operandRegs i) :
    l.foldl giveReg s = { s with args := (l.foldl giveReg s).args } := by
  induction l generalizing s with
  | nil => rfl
  | cons r l ih =>
    have h := ih (giveReg s r) fun q hq => hl q (List.mem_cons_of_mem _ hq)
    rw [giveReg_only i r s (hl r List.mem_cons_self)] at h
    rw [List.foldl_cons, giveReg_only i r s (hl r List.mem_cons_self)]
    exact h

theorem giveBytes_only (l : List Nat) (s : State) :
    l.foldl giveByte s = { s with ibuf := (l.foldl giveByte s).ibuf } := by
  induction l generalizing s with
  | nil => rfl
  | cons k l ih =>
    have h := ih (giveByte s k)
    have e : giveByte s k = { s with ibuf := (giveByte s k).ibuf } := by unfold giveByte; split <;> rfl
    rw [e] at h
    rw [List.foldl_cons, e]
    exact h

/-- Giving an operation its operands writes operand registers and IBUF, and nothing else. -/
theorem giveOperands_only (i : Instr) (s : State) :
    giveOperands i s = { s with args := (giveOperands i s).args, ibuf := (giveOperands i s).ibuf } := by
  have hr := giveRegs_only i (operandRegs i) s fun _ h => h
  unfold giveOperands
  dsimp only
  split
  · rw [giveBytes_only, hr]
  · rw [hr]

theorem readReg_ibuf (r : RegName) (s : State) (m : Memory) : readReg r { s with ibuf := m } = readReg r s := by
  cases r <;> rfl

/-- Every operand register the operation reads that held no value reads 0; every other register reads as before. -/
theorem readReg_giveOperands (i : Instr) (s : State) (r : RegName) :
    readReg r (giveOperands i s) = if r ∈ operandRegs i ∧ readReg r s = none then some 0 else readReg r s := by
  rw [← readReg_giveRegs (operandRegs i) s r (operandRegs_rw i)]
  unfold giveOperands
  dsimp only
  split
  · rw [giveBytes_only, readReg_ibuf]
  · rfl

/-- Every byte of IN that held no value reads 0, if the operation reads IN; every other byte of IBUF reads as before. -/
theorem read_giveOperands (i : Instr) (s : State) (a : Nat) :
    (giveOperands i s).ibuf.read a =
      if readsInput i = true ∧ a < s.ilen.toNat ∧ s.ibuf.read a = none then some 0x00#8 else s.ibuf.read a := by
  have hr : ((operandRegs i).foldl giveReg s).ibuf = s.ibuf := by
    rw [giveRegs_only i (operandRegs i) s fun _ h => h]
  unfold giveOperands
  dsimp only
  split
  · rename_i h
    rw [read_giveBytes, hr]
    simp [h, List.mem_range]
  · rename_i h
    rw [hr]
    simp [h]

/-- Giving an operation its operands gives it all it reads. -/
theorem operandsHeld_giveOperands (i : Instr) (s : State) : OperandsHeld i (giveOperands i s) := by
  refine ⟨fun r hr => ?_, fun hi k hk => ?_⟩
  · rw [readReg_giveOperands]
    split
    · simp
    · rename_i h
      exact fun e => h ⟨hr, e⟩
  · have hl : (giveOperands i s).ilen = s.ilen := by rw [giveOperands_only i s]
    rw [hl] at hk
    rw [read_giveOperands]
    split
    · simp
    · rename_i h
      exact fun e => h ⟨hi, hk, e⟩

theorem foldl_fixed {α β : Type} (f : α → β → α) (l : List β) (a : α) (h : ∀ b, b ∈ l → f a b = a) : l.foldl f a = a := by
  induction l with
  | nil => rfl
  | cons b l ih =>
    rw [List.foldl_cons, h b List.mem_cons_self]
    exact ih fun c hc => h c (List.mem_cons_of_mem _ hc)

/-- An operation that has all it reads is given nothing. -/
theorem giveOperands_held (i : Instr) (s : State) (h : OperandsHeld i s) : giveOperands i s = s := by
  unfold giveOperands
  dsimp only
  rw [foldl_fixed giveReg _ s fun r hr => if_neg (h.1 r hr)]
  split
  · exact foldl_fixed giveByte _ s fun k hk => if_neg (h.2 ‹_› k (List.mem_range.mp hk))
  · rfl

theorem giveInputs_opcodeOf (i : Instr) (s : State) : giveInputs (opcodeOf i) s = giveOperands i s := by cases i <;> rfl

/-- Placing an operation's code: what the operation is given, OP, STATUS and the steps left, and nothing else. -/
theorem withFetchWord_eq (i : Instr) (s : State) :
    s.withFetchWord 8 (opcodeOf i).toNat =
      { giveOperands i s with op := some (opcodeOf i), status := statusBusy, left := 0 } := by
  have hw : BitVec.ofNat 8 ((opcodeOf i).toNat % 2 ^ 8) = opcodeOf i := by cases i <;> rfl
  unfold State.withFetchWord placeOp
  rw [hw, giveInputs_opcodeOf]

/-- Placing leaves every register that is not OP or STATUS as giving the operands leaves it. -/
theorem readReg_withFetchWord (i : Instr) (s : State) (r : RegName) (ho : r ≠ .op) (hs : r ≠ .status) :
    readReg r (s.withFetchWord 8 (opcodeOf i).toNat) = readReg r (giveOperands i s) := by
  rw [withFetchWord_eq]
  cases r <;> first | rfl | contradiction

/-- A placed operation has all it reads. -/
theorem operandsHeld_withFetchWord (i : Instr) (s : State) : OperandsHeld i (s.withFetchWord 8 (opcodeOf i).toNat) := by
  refine ⟨fun r hr => ?_, fun hi => ?_⟩
  · have other : RegName.op ∉ operandRegs i ∧ RegName.status ∉ operandRegs i := by cases i <;> decide
    rw [readReg_withFetchWord i s r (fun e => other.1 (e ▸ hr)) fun e => other.2 (e ▸ hr)]
    exact (operandsHeld_giveOperands i s).1 r hr
  · rw [withFetchWord_eq]
    exact (operandsHeld_giveOperands i s).2 hi

end Sys2Proof.Machine
end

