-- ==== Sys2Proof/Tests/Slice0.lean ====
section
/-! SUPPORT. Tests of one step each, with the expected results of `spec/95_test_vectors.md` (cited by the vector's number) or of
the rule named; and a witness for the hypotheses of each statement that has any. -/

namespace Sys2Proof.Tests

open Sys2Proof.Machine

/-- A block after reset whose IN is these bytes. -/
def withIn (bytes : List Byte) : State :=
  { State.reset with ilen := BitVec.ofNat 16 bytes.length, ibuf := Memory.ofBytes 0 bytes }

/-- A block after reset with operand registers. -/
def withArgs (a : Operands) : State := { State.reset with args := a }

/-- A block after reset whose host has these actions to do. -/
def withHost (l : List HostAction) : State := { State.reset with host := l }

/-- An operation in progress, `left` steps before its completion step. -/
def inProgress (op : Byte) (left : Nat) (l : List HostAction) : State :=
  { State.reset with op := some op, status := 0x01#8, left := left, host := l }

/-- The state a step answers, if any. -/
def nextOf : Host.Outcome State Fault Refusal → Option State
  | .next t => some t
  | .fault _ => none
  | .refused _ => none

/-- The fault a step answers, if any. -/
def faultOf : Host.Outcome State Fault Refusal → Option Fault
  | .next _ => none
  | .fault f => some f
  | .refused _ => none

/-- Place an operation, with what its START needs, and run one step. -/
def runOp (i : Instr) (s : State) : Host.Outcome State Fault Refusal := step (s.withFetchWord 8 (opcodeOf i).toNat)

/-- STATUS, R_OPCODE, OLEN and the bytes of OBUF after an operation. -/
def frameOut (i : Instr) (s : State) : Option (Byte × Option Half × Option Half × List Byte) :=
  (nextOf (runOp i s)).map fun t => (t.status, t.res.rOpcode, t.res.olen, t.res.obuf.map Prod.snd)

/-- STATUS, T_STATE, T_MDIST, T_MEN, T_SDIST, T_SEN and T_CALIB after an operation. -/
def reportOut (i : Instr) (s : State) : Option (List (Option Nat)) :=
  (nextOf (runOp i s)).map fun t =>
    [.status, .tState, .tMDist, .tMEn, .tSDist, .tSEn, .tCalib].map fun r => readReg r t

/-- T_ENG, T_B1, T_B2, T_LIGHT and the first and last gates after an operation. -/
def engOut (i : Instr) (s : State) : Option (List (Option Nat)) :=
  (nextOf (runOp i s)).map fun t =>
    [.tEng, .tB1, .tB2, .tLight, .tMGate 0, .tMGate 13, .tSGate 0, .tSGate 13].map fun r => readReg r t

/-! ## Decoding: each operation's byte, bit by bit (`30_encoding.md` R68, OP8: bits 7:0 are the operation code) -/

/-- The byte decodes to the operation and is what the operation encodes to. -/
def Codes (b : Byte) (i : Instr) : Prop := decode [b] = .ok (i, []) ∧ encode i = [b]

theorem codes_of {b : Byte} {i : Instr} (hd : decode [b] = .ok (i, [])) (he : encode i = [b]) : Codes b i := ⟨hd, he⟩

/-- DEC_FRAME, DEC_ACK, DEC_TARGET, ENC_CMD. -/
theorem test_decode_codec :
    Codes 0b00000001#8 .decFrame ∧
    Codes 0b00000010#8 .decAck ∧
    Codes 0b00000011#8 .decTarget ∧
    Codes 0b00010000#8 .encCmd := by
  repeat' first | exact codes_of rfl rfl | apply And.intro

/-- BLD_ENABLE_CONFIG to BLD_BLUETOOTH, 0x20 to 0x27. -/
theorem test_decode_builders_low :
    Codes 0b00100000#8 .bldEnableConfig ∧
    Codes 0b00100001#8 .bldEndConfig ∧
    Codes 0b00100010#8 .bldSetResolution ∧
    Codes 0b00100011#8 .bldSetBasicParams ∧
    Codes 0b00100100#8 .bldSetMotionSens ∧
    Codes 0b00100101#8 .bldSetStaticSens ∧
    Codes 0b00100110#8 .bldSetBaud ∧
    Codes 0b00100111#8 .bldBluetooth := by
  repeat' first | exact codes_of rfl rfl | apply And.intro

/-- BLD_READ_MAC to BLD_BGCORR_READ, 0x28 to 0x2E. -/
theorem test_decode_builders_high :
    Codes 0b00101000#8 .bldReadMac ∧
    Codes 0b00101001#8 .bldLightSensorMode ∧
    Codes 0b00101010#8 .bldFactoryReset ∧
    Codes 0b00101011#8 .bldReboot ∧
    Codes 0b00101100#8 .bldFirmwareVersion ∧
    Codes 0b00101101#8 .bldBgcorrEnter ∧
    Codes 0b00101110#8 .bldBgcorrRead := by
  repeat' first | exact codes_of rfl rfl | apply And.intro

/-- BLD_READ_RESOLUTION to BLD_READ_LIGHT_SENSOR, 0x30 to 0x36. -/
theorem test_decode_queries :
    Codes 0b00110000#8 .bldReadResolution ∧
    Codes 0b00110001#8 .bldReadBasicParams ∧
    Codes 0b00110010#8 .bldReadMotionSens ∧
    Codes 0b00110011#8 .bldReadStaticSens ∧
    Codes 0b00110100#8 .bldEngModeOn ∧
    Codes 0b00110101#8 .bldEngModeOff ∧
    Codes 0b00110110#8 .bldReadLightSensor := by
  repeat' first | exact codes_of rfl rfl | apply And.intro

/-- U1 to U5 and the ends of every unassigned range. -/
theorem test_decode_unassigned :
    [0x00, 0x04, 0x0F, 0x11, 0x1F, 0x2F, 0x37, 0xFF].map (decodeTableWord 8) = List.replicate 8 none := by decide

/-- No byte is no operation. -/
theorem test_decode_empty : decode [] = .error .noBytes := rfl

/-- R12: the ends of the assigned index ranges, and the gaps between them. -/
theorem test_register_map :
    [0x005, 0x017, 0x02D, 0x04A, 0x05D, 0x06D].map regAt =
      [some .rOpcode, some .argOn, some (.argGate 13), some .tCalib, some (.tMGate 13), some (.tSGate 13)] ∧
    [0x006, 0x00F, 0x018, 0x01F, 0x02E, 0x040, 0x04B, 0x04F, 0x05E, 0x05F, 0x06E].map regAt = List.replicate 11 none := by
  decide

/-! ## Well-formedness: an ill-formed term for each check -/

/-- R136 items 1 to 5 under CAND: an index outside, an RO register, a value too wide, a reserved bit of CTRL, ILEN = 73; IBUF
beyond its end and a value of nine bits; OBUF. -/
theorem test_wf_refuses_writes :
    [HostAction.write .reg 0x006 0, .write .reg 0x002 0, .write .reg 0x011 4, .write .reg 0x001 2, .write .reg 0x003 73,
      .write .ibuf 72 0, .write .ibuf 0 256, .write .obuf 0 0].map (HostAction.wf Config.cand) = List.replicate 8 false := by
  decide

/-- R136 item 1: reads outside the three spaces. -/
theorem test_wf_refuses_reads :
    [HostAction.read .reg 0x040, .read .ibuf 72, .read .obuf 84].map (HostAction.wf Config.cand) =
      List.replicate 3 false := by decide

/-- The neighbours of those actions are well formed. -/
theorem test_wf_accepts :
    [HostAction.write .reg 0x000 255, .write .reg 0x011 3, .write .reg 0x001 1, .write .reg 0x003 72, .write .ibuf 71 255,
      .read .reg 0x002, .read .ibuf 71, .read .obuf 83].map (HostAction.wf Config.cand) = List.replicate 8 true := by
  decide

/-- Every operation is well formed: format OP8 has no field that could be wrong. -/
theorem test_wf_operations (i : Instr) : i.wf = true := rfl

/-- R2, R80, R81: parameters that break one constraint each. -/
theorem test_params_refused :
    [{ Config.cand with ibufCap := 71 }, { Config.cand with ibufCap := 65534 },
      { Config.cand with opcReboot := 0x00FF#16 }, { Config.cand with plReboot := List.replicate 61 0#8 },
      { Config.cand with resCode2 := 0x01#8 }, { Config.cand with baudTable := [(9600#32, 1#16)] },
      { Config.cand with baudTable := Config.cand.baudTable ++ [(460801#32, 9#16)] },
      { Config.cand with baudTable := Config.cand.baudTable ++ [(9600#32, 9#16)] }].map Params.valid =
      List.replicate 8 false := by decide

/-! ## One completion step of each operation -/

/-- V11 and V10: suffix bytes inside the payload; a declared length of 0. -/
theorem test_decFrame :
    frameOut .decFrame (withIn
        [0xFD#8, 0xFC#8, 0xFB#8, 0xFA#8, 0x06#8, 0x00#8, 0x01#8, 0x02#8, 0x04#8, 0x03#8, 0x02#8, 0x01#8,
         0x04#8, 0x03#8, 0x02#8, 0x01#8]) =
      some (0x42#8, some 0x0201#16, some 4#16, [0x04#8, 0x03#8, 0x02#8, 0x01#8]) ∧
    frameOut .decFrame (withIn
        [0xFD#8, 0xFC#8, 0xFB#8, 0xFA#8, 0x00#8, 0x00#8, 0xFF#8, 0x00#8, 0x04#8, 0x03#8, 0x02#8, 0x01#8]) =
      some (0x4E#8, none, none, []) := by decide

/-- X3: the source's Example 3. -/
theorem test_decAck_example :
    frameOut .decAck (withIn
        [0xFD#8, 0xFC#8, 0xFB#8, 0xFA#8, 0x04#8, 0x00#8, 0x11#8, 0x00#8, 0xAA#8, 0xBB#8, 0x04#8, 0x03#8,
         0x02#8, 0x01#8]) =
      some (0x42#8, some 0x0011#16, some 2#16, [0xAA#8, 0xBB#8]) := by decide

/-- A3: a Target frame given to DEC_ACK. -/
theorem test_decAck_target :
    frameOut .decAck (withIn
        [0xF4#8, 0xF3#8, 0xF2#8, 0xF1#8, 0x0B#8, 0x00#8, 0x02#8, 0xAA#8, 0x02#8, 0x64#8, 0x00#8, 0x32#8,
         0xC8#8, 0x00#8, 0x1E#8, 0x55#8, 0x05#8, 0xF8#8, 0xF7#8, 0xF6#8, 0xF5#8]) =
      some (0x8A#8, none, none, []) := by decide

/-- T2: the extended report, its basic and its engineering fields. -/
theorem test_decTarget_extended :
    reportOut .decTarget (withIn
        [0xF4#8, 0xF3#8, 0xF2#8, 0xF1#8, 0x2A#8, 0x00#8, 0x01#8, 0xAA#8, 0x03#8, 0x96#8, 0x00#8, 0x40#8,
         0x2C#8, 0x01#8, 0x20#8, 0x0D#8, 0x0D#8, 0x00#8, 0x01#8, 0x02#8, 0x03#8, 0x04#8, 0x05#8, 0x06#8, 0x07#8,
         0x08#8, 0x09#8, 0x0A#8, 0x0B#8, 0x0C#8, 0x0D#8, 0x10#8, 0x11#8, 0x12#8, 0x13#8, 0x14#8, 0x15#8, 0x16#8,
         0x17#8, 0x18#8, 0x19#8, 0x1A#8, 0x1B#8, 0x1C#8, 0x1D#8, 0x80#8, 0x55#8, 0xFF#8, 0xF8#8, 0xF7#8, 0xF6#8,
         0xF5#8]) =
      some [some 0x82, some 0x03, some 150, some 64, some 300, some 32, some 0xFF] ∧
    engOut .decTarget (withIn
        [0xF4#8, 0xF3#8, 0xF2#8, 0xF1#8, 0x2A#8, 0x00#8, 0x01#8, 0xAA#8, 0x03#8, 0x96#8, 0x00#8, 0x40#8,
         0x2C#8, 0x01#8, 0x20#8, 0x0D#8, 0x0D#8, 0x00#8, 0x01#8, 0x02#8, 0x03#8, 0x04#8, 0x05#8, 0x06#8, 0x07#8,
         0x08#8, 0x09#8, 0x0A#8, 0x0B#8, 0x0C#8, 0x0D#8, 0x10#8, 0x11#8, 0x12#8, 0x13#8, 0x14#8, 0x15#8, 0x16#8,
         0x17#8, 0x18#8, 0x19#8, 0x1A#8, 0x1B#8, 0x1C#8, 0x1D#8, 0x80#8, 0x55#8, 0xFF#8, 0xF8#8, 0xF7#8, 0xF6#8,
         0xF5#8]) =
      some [some 1, some 0x0D, some 0x0D, some 0x80, some 0, some 13, some 0x10, some 0x1D] := by decide +kernel

/-- X2, T1 and T17: no engineering data in a basic report; shape before discriminator. -/
theorem test_decTarget_basic :
    engOut .decTarget (withIn
        [0xF4#8, 0xF3#8, 0xF2#8, 0xF1#8, 0x0B#8, 0x00#8, 0x02#8, 0xAA#8, 0x02#8, 0x64#8, 0x00#8, 0x32#8,
         0xC8#8, 0x00#8, 0x1E#8, 0x55#8, 0x05#8, 0xF8#8, 0xF7#8, 0xF6#8, 0xF5#8]) =
      some [some 0, none, none, none, none, none, none, none] ∧
    reportOut .decTarget (withIn
        [0xF4#8, 0xF3#8, 0xF2#8, 0xF1#8, 0x0B#8, 0x00#8, 0x03#8, 0xAA#8, 0x02#8, 0x64#8, 0x00#8, 0x32#8,
         0xC8#8, 0x00#8, 0x1E#8, 0x56#8, 0x05#8, 0xF8#8, 0xF7#8, 0xF6#8, 0xF5#8]) =
      some [some 0x8A, none, none, none, none, none, none] := by decide +kernel

/-- E1: ENC_CMD with ARG_OPCODE = 0x00FF. -/
theorem test_encCmd_example :
    frameOut .encCmd { withIn [0x01#8, 0x00#8] with args := { Operands.empty with argOpcode := some 0x00FF#16 } } =
      some (0x02#8, none, some 14#16,
        [0xFD#8, 0xFC#8, 0xFB#8, 0xFA#8, 0x04#8, 0x00#8, 0xFF#8, 0x00#8, 0x01#8, 0x00#8, 0x04#8, 0x03#8,
   0x02#8, 0x01#8]) := by decide

/-- E5 and E6: the operand fault of R123. -/
theorem test_encCmd_faults :
    faultOf (exec .encCmd (withIn [])) = some .operandNoValue ∧
    faultOf (exec .encCmd
      { withIn [0xDE#8, 0xAD#8] with ilen := 3#16, args := { Operands.empty with argOpcode := some 1#16 } }) =
        some .inputNoValue := by decide

/-- X1: BLD_ENABLE_CONFIG, with IN untouched and empty. -/
theorem test_bldEnableConfig :
    frameOut .bldEnableConfig State.reset =
      some (0x02#8, none, some 14#16,
        [0xFD#8, 0xFC#8, 0xFB#8, 0xFA#8, 0x04#8, 0x00#8, 0xFF#8, 0x00#8, 0x01#8, 0x00#8, 0x04#8, 0x03#8,
   0x02#8, 0x01#8]) := by decide

/-- B1: the selector 3. -/
theorem test_bldSetResolution_invalid :
    frameOut .bldSetResolution (withArgs { Operands.empty with argRes := some 3#2 }) =
      some (0x22#8, none, none, []) := by decide

/-- B5: ARG_DUR never written. -/
theorem test_bldSetBasicParams_fault :
    faultOf (exec .bldSetBasicParams
      (withArgs { Operands.empty with argMin := some 0#8, argMax := some 0#8, argPol := some 0#1 })) =
        some .operandNoValue := by decide

/-- B6: ARG_GATE[13] never written. -/
theorem test_bldSetMotionSens_fault :
    faultOf (exec .bldSetMotionSens
      (withArgs { Operands.empty with argGate := Vector.ofFn fun g => if g = 13 then none else some 0xFF#8 })) =
        some .operandNoValue := by decide

/-- The operations that read operands, placed after reset with what R135 asks for, run (log entry 8). -/
theorem test_placed_operations_run :
    [Instr.encCmd, .bldSetResolution, .bldSetBasicParams, .bldSetMotionSens, .bldSetStaticSens, .bldSetBaud, .bldBluetooth].all
      (fun i => (nextOf (runOp i State.reset)).isSome) = true := by decide

/-- The other operand faults of R123: the builders with one operand, after reset. -/
theorem test_builder_faults :
    [Instr.bldSetResolution, .bldSetStaticSens, .bldSetBaud, .bldBluetooth].map (fun i => faultOf (exec i State.reset)) =
      List.replicate 4 (some .operandNoValue) := by decide

/-- U4: OP = 0x37. -/
theorem test_unassigned_status :
    (nextOf (step (inProgress 0x37#8 0 []))).map (fun t => (t.status, t.res.olen)) = some (0x1E#8, none) := by decide

/-! ## The builders' frames under configuration CAND (section 2.3); `builderCommand` is what BuildersReadOnlyTheirOperands
states each builder's meaning with -/

/-- The frame of a builder under CAND. -/
def candFrame (i : Instr) (a : Operands) : Option (List Byte) :=
  (builderCommand Config.cand (withArgs a) i).map fun c => wireCmd c.1 c.2

/-- BLD_SET_RESOLUTION, ARG_RES = 1. -/
theorem test_cand_setResolution :
    candFrame .bldSetResolution { Operands.empty with argRes := some 1#2 } =
      some [0xFD#8, 0xFC#8, 0xFB#8, 0xFA#8, 0x08#8, 0x00#8, 0x01#8, 0x00#8, 0x01#8, 0x00#8, 0x00#8, 0x00#8,
   0x00#8, 0x00#8, 0x04#8, 0x03#8, 0x02#8, 0x01#8] := by decide

/-- BLD_SET_BASIC_PARAMS, the second row. -/
theorem test_cand_setBasicParams :
    candFrame .bldSetBasicParams { Operands.empty with argMin := some 1#8, argMax := some 0x0C#8, argDur := some 0x012C#16, argPol := some 1#1 } =
      some [0xFD#8, 0xFC#8, 0xFB#8, 0xFA#8, 0x08#8, 0x00#8, 0x02#8, 0x00#8, 0x01#8, 0x0C#8, 0x2C#8, 0x01#8,
   0x01#8, 0x00#8, 0x04#8, 0x03#8, 0x02#8, 0x01#8] := by decide

/-- BLD_SET_MOTION_SENS, every gate 0xFF. -/
theorem test_cand_setMotionSens :
    candFrame .bldSetMotionSens { Operands.empty with argGate := Vector.replicate 14 (some 0xFF#8) } =
      some [0xFD#8, 0xFC#8, 0xFB#8, 0xFA#8, 0x10#8, 0x00#8, 0x03#8, 0x00#8, 0xFF#8, 0xFF#8, 0xFF#8, 0xFF#8,
   0xFF#8, 0xFF#8, 0xFF#8, 0xFF#8, 0xFF#8, 0xFF#8, 0xFF#8, 0xFF#8, 0xFF#8, 0xFF#8, 0x04#8, 0x03#8, 0x02#8,
   0x01#8] := by decide

/-- BLD_SET_STATIC_SENS, ARG_GATE[g] = g. -/
theorem test_cand_setStaticSens :
    candFrame .bldSetStaticSens { Operands.empty with argGate := Vector.ofFn fun g => some (BitVec.ofNat 8 g.val) } =
      some [0xFD#8, 0xFC#8, 0xFB#8, 0xFA#8, 0x10#8, 0x00#8, 0x04#8, 0x00#8, 0x00#8, 0x01#8, 0x02#8, 0x03#8,
   0x04#8, 0x05#8, 0x06#8, 0x07#8, 0x08#8, 0x09#8, 0x0A#8, 0x0B#8, 0x0C#8, 0x0D#8, 0x04#8, 0x03#8, 0x02#8,
   0x01#8] := by decide

/-- BLD_SET_BAUD, 115200. -/
theorem test_cand_setBaud :
    candFrame .bldSetBaud { Operands.empty with argBaud := some 115200#32 } =
      some [0xFD#8, 0xFC#8, 0xFB#8, 0xFA#8, 0x04#8, 0x00#8, 0xA1#8, 0x00#8, 0x05#8, 0x00#8, 0x04#8, 0x03#8,
   0x02#8, 0x01#8] := by decide

/-- B2 to B4: 14400, 0 and 0xFFFFFFFF are no keys of CAND's table. -/
theorem test_cand_setBaud_unknown :
    [14400#32, 0#32, 0xFFFFFFFF#32].map (baudCode Config.cand) = [none, none, none] := by decide

/-- BLD_BLUETOOTH, off. -/
theorem test_cand_bluetooth :
    candFrame .bldBluetooth { Operands.empty with argOn := some 0#1 } =
      some [0xFD#8, 0xFC#8, 0xFB#8, 0xFA#8, 0x04#8, 0x00#8, 0xA4#8, 0x00#8, 0x00#8, 0x00#8, 0x04#8, 0x03#8,
   0x02#8, 0x01#8] := by decide

/-- BLD_READ_MAC. -/
theorem test_cand_readMac :
    candFrame .bldReadMac Operands.empty =
      some [0xFD#8, 0xFC#8, 0xFB#8, 0xFA#8, 0x04#8, 0x00#8, 0xA5#8, 0x00#8, 0x01#8, 0x00#8, 0x04#8, 0x03#8,
   0x02#8, 0x01#8] := by decide

/-- The builders whose candidate payload is empty: opcode FE, 0C, A2, A3, A0, 0B, 1B. -/
theorem test_cand_thin :
    [Instr.bldEndConfig, .bldLightSensorMode, .bldFactoryReset, .bldReboot, .bldFirmwareVersion,
      .bldBgcorrEnter, .bldBgcorrRead].map (fun i => candFrame i Operands.empty) =
      [0xFE, 0x0C, 0xA2, 0xA3, 0xA0, 0x0B, 0x1B].map fun c => some
        [0xFD#8, 0xFC#8, 0xFB#8, 0xFA#8, 0x02#8, 0x00#8, c, 0x00#8, 0x04#8, 0x03#8, 0x02#8, 0x01#8] := by decide

/-- The query builders: opcode 11, 12, 13, 14, 62, 63, 1C. -/
theorem test_cand_queries :
    [Instr.bldReadResolution, .bldReadBasicParams, .bldReadMotionSens, .bldReadStaticSens, .bldEngModeOn,
      .bldEngModeOff, .bldReadLightSensor].map (fun i => candFrame i Operands.empty) =
      [0x11, 0x12, 0x13, 0x14, 0x62, 0x63, 0x1C].map fun c => some
        [0xFD#8, 0xFC#8, 0xFB#8, 0xFA#8, 0x02#8, 0x00#8, c, 0x00#8, 0x04#8, 0x03#8, 0x02#8, 0x01#8] := by decide

/-! ## The host's side -/

/-- U6, H1, H4, H5, and a write of OBUF and of an unassigned index. -/
theorem test_host_faults :
    [actW .ctrl 1, actW .status 0, actW .ctrl 2, actW .argRes 4, HostAction.write .reg 0x040 0, .read .reg 0x006].map
      (fun a => faultOf (step (withHost [a]))) =
      [some .opNoValue, some .writeReadOnly, some .ctrlReserved, some .valueTooWide, some .unassignedIndex,
        some .unassignedIndex] := by decide

/-- H3: a write of ILEN while BUSY = 1. -/
theorem test_write_while_busy :
    faultOf (step (inProgress 0x01#8 1 [actW .ilen 0])) = some .writeWhileBusy := by decide

/-- H2: ILEN above any capacity the spec allows. -/
theorem test_ilen_too_large : step (withHost [actW .ilen 65534]) = .fault .ilenTooLarge := by
  have h := params_cap_high
  rw [step_idle _ (by decide)]
  simp [hostTurn, withHost, actW, hostAct, hostWrite, regAt_regIndex, writeReg, regAccess, regWidth, State.busy, State.reset]
  omega

/-- H7, H8, Z1 to Z3: CTRL reads 0, a write of 0 is nothing; STATUS and ILEN read 0 after reset, OLEN holds no value. -/
theorem test_reset_reads :
    [actR .ctrl, actR .status, actR .ilen].map (fun a => (nextOf (step (withHost [a]))).map fun t => t.reads) =
      [some [⟨.reg, 0x001, 0⟩], some [⟨.reg, 0x002, 0⟩], some [⟨.reg, 0x003, 0⟩]] ∧
    (nextOf (step (withHost [actW .ctrl 0]))).map (fun t => (t.status, t.reads)) = some (0x00#8, []) ∧
    faultOf (step (withHost [actR .olen])) = some .readNoValue := by decide

/-- R71, R72: the expansions of CALL, LOADIN and RB, as in the programs of section 3. -/
theorem test_notation :
    actCall .bldEnableConfig = [.write .reg 0x000 0x20, .write .reg 0x001 0x01, .wait] ∧
    actLoadIn [0xDE#8, 0xAD#8] = [.write .ibuf 0 0xDE, .write .ibuf 1 0xAD, .write .reg 0x003 2] ∧
    actRB 0 2 = [.read .obuf 0, .read .obuf 1] := by decide

/-- Z4: reset while BUSY = 1. -/
theorem test_reset_while_busy :
    (nextOf (step (inProgress 0x01#8 7 [.reset]))).map (fun t => (t.status, t.op, t.left)) = some (0x00#8, none, 0) := by
  decide

/-- Z5: DEC_FRAME of the empty IN; V1. -/
theorem test_decFrame_after_reset :
    (nextOf (step (inProgress 0x01#8 0 [.wait]))).map (fun t => (t.status, t.host)) = some (0x06#8, [.wait]) := by decide

/-- R15, R17: a START leaves STATUS = 0x01 and no results. -/
theorem test_start :
    (nextOf (step { withHost [actW .ctrl 1] with op := some 0x21#8, status := 0x02#8, res := emitted [0x55#8] })).map
      (fun t => (t.status, t.res.olen, t.res.obuf, t.op)) = some (0x01#8, none, [], some 0x21#8) := by decide

/-! ## Witnesses: states and operands that meet the hypotheses of each statement, clause by clause -/

/-- `IN` of `withIn bytes` is `bytes`, whatever the operand registers. -/
theorem inputIs_withIn (bytes : List Byte) (a : Operands) (h : bytes.length < 65536) :
    InputIs { withIn bytes with args := a } bytes := by
  have hl : (BitVec.ofNat 16 bytes.length).toNat = bytes.length := by simpa using h
  refine ⟨hl.symm, fun k _ => ?_⟩
  show (Memory.ofBytes 0 bytes).read k = bytes[k]?
  rw [read_ofBytes]; simp

theorem inputIs_in (bytes : List Byte) (h : bytes.length < 65536) : InputIs (withIn bytes) bytes :=
  inputIs_withIn bytes Operands.empty h

/-- An operation in progress that reads nothing meets the invariant. -/
theorem inv_inProgress (left : Nat) (l : List HostAction) : (inProgress 0x21#8 left l).Inv where
  statusLegal := (by decide : (0x01#8 : Byte) ∈ legalStatus)
  inputForm := rfl
  inputInside := fun _ h => absurd rfl h
  lengthLegal := Nat.zero_le _
  resultsOk := results_empty_ok
  hiddenUntilDone := fun _ => rfl
  errorWithoutResults := fun _ => rfl
  busyReady := fun _ => ⟨0x21#8, rfl, fun i rest h => by
    cases h; exact ⟨fun r hr => absurd hr (by simp [operandRegs]), fun hr => absurd hr (by decide)⟩⟩
  idleLeft := fun h => absurd (show (1#8 : Byte).getLsbD 0 = false from h) (by decide)

/-- DecodeInvertsEncode, RegisterMapAsTabled: a byte that decodes, an index that is assigned. -/
theorem witness_decode_and_map :
    decode [0x36#8, 0x01#8] = .ok (.bldReadLightSensor, [0x01#8]) ∧ regAt 0x06D = some (.tSGate 13) := ⟨rfl, rfl⟩

/-- OperationCodesAsTabled: assigned and unassigned bytes at the ends of the ranges. -/
theorem witness_OperationCodesAsTabled :
    (∀ e, decode [0x01#8] ≠ .error e) ∧ (∀ e, decode [0x2E#8] ≠ .error e) ∧ (∀ e, decode [0x36#8] ≠ .error e) ∧
    [0x00#8, 0x04#8, 0x0F#8, 0x11#8, 0x1F#8, 0x2F#8, 0x37#8, 0xFF#8].all (fun b => decide (b.toNat = 0x00 ∨
      (0x04 ≤ b.toNat ∧ b.toNat ≤ 0x0F) ∨ (0x11 ≤ b.toNat ∧ b.toNat ≤ 0x1F) ∨ b.toNat = 0x2F ∨ 0x37 ≤ b.toNat)) = true :=
  ⟨fun _ h => (nomatch h), fun _ h => (nomatch h), fun _ h => (nomatch h), by decide⟩

/-- BufferWriteReadsBack, StepKeepsTheBufferForm: buffers in canonical form, another index, a step. -/
theorem witness_buffer_form :
    Memory.wf [(0, 0xFD#8), (71, 0x01#8)] = true ∧ (5 : Nat) ≠ 71 ∧
    (withHost [.idle]).ibuf.wf = true ∧ (withHost [.idle]).res.obuf.wf = true ∧
    step (withHost [.idle]) = .next (withHost []) := ⟨rfl, by decide, rfl, rfl, rfl⟩

/-- CompletionStepRunsTheOperation. -/
theorem witness_CompletionStepRunsTheOperation :
    (inProgress 0x36#8 0 []).busy = true ∧ (inProgress 0x36#8 0 []).left = 0 ∧ (inProgress 0x36#8 0 []).op = some 0x36#8 ∧
    decode [0x36#8] = .ok (.bldReadLightSensor, []) := ⟨rfl, rfl, rfl, rfl⟩

/-- UnassignedCodeEndsUnsupported: both clauses, at 0x2F and 0x37. -/
theorem witness_UnassignedCodeEndsUnsupported :
    decode [0x2F#8] = .error (.unassignedOp 0x2F#8) ∧ decode [0x37#8] = .error (.unassignedOp 0x37#8) ∧
    HostActs { withHost [.write .reg 0x001 1] with op := some 0x37#8 } (.write .reg 0x001 1) [] ∧
    (inProgress 0x2F#8 0 []).busy = true ∧ (inProgress 0x2F#8 0 []).left = 0 :=
  ⟨rfl, rfl, ⟨rfl, by decide⟩, rfl, rfl⟩

/-- BusyStepsOnlyCountDown: both clauses. -/
theorem witness_BusyStepsOnlyCountDown :
    (inProgress 0x01#8 1 []).busy = true ∧ (inProgress 0x01#8 1 []).left = 0 + 1 ∧ (inProgress 0x01#8 1 []).host = [] ∧
    (inProgress 0x01#8 1 [.idle]).host = .idle :: [] := ⟨rfl, rfl, rfl, rfl⟩

/-- EndedRunStaysAsItIs. -/
theorem witness_EndedRunStaysAsItIs : State.reset.host = [] ∧ State.reset.busy = false := ⟨rfl, rfl⟩

/-- PollingHostSeesCompletion. -/
theorem witness_PollingHostSeesCompletion :
    (inProgress 0x01#8 3 [.wait]).status = 0x01#8 ∧ (inProgress 0x01#8 3 [.wait]).op = some 0x01#8 ∧
    decode [0x01#8] = .ok (.decFrame, []) ∧ OperandsHeld .decFrame (inProgress 0x01#8 3 [.wait]) ∧
    (inProgress 0x01#8 3 [.wait]).host = .wait :: [] :=
  ⟨rfl, rfl, rfl, ⟨fun r hr => absurd hr (by simp [operandRegs]), fun _ k hk => absurd hk (Nat.not_lt_zero k)⟩, rfl⟩

/-- ReadyOperationAlwaysCompletes, BusyBlockKeepsItsInputs, ResultsHiddenUntilDone, StepKeepsTheInvariant: states of the
invariant with an operation in progress, at its completion step and before it. -/
theorem witness_invariant :
    (inProgress 0x21#8 0 []).Inv ∧ (inProgress 0x21#8 0 []).busy = true ∧ (inProgress 0x21#8 0 []).left = 0 ∧
    (inProgress 0x21#8 1 [.idle]).Inv ∧ (inProgress 0x21#8 1 [.idle]).done = false ∧
    step (inProgress 0x21#8 1 [.idle]) = .next (inProgress 0x21#8 0 []) :=
  ⟨inv_inProgress _ _, rfl, rfl, inv_inProgress _ _, rfl, rfl⟩

/-- BusyBlockKeepsItsInputs, ResultsHiddenUntilDone: the host's turns in them. -/
theorem witness_busy_turns :
    HostActs (inProgress 0x21#8 1 [.write .reg 0x000 0]) (.write .reg 0x000 0) [] ∧ regAt 0x000 = some .op ∧
    HostActs (inProgress 0x21#8 1 [.write .reg 0x02D 0]) (.write .reg 0x02D 0) [] ∧ regAt 0x02D = some (.argGate 13) ∧
    regAccess (.argGate 13) = .rw ∧
    HostActs (inProgress 0x21#8 1 [.write .ibuf 0 0]) (.write .ibuf 0 0) [] ∧
    regAccess .tCalib = .ro ∧ HostActs (inProgress 0x21#8 1 [.read .reg 0x04A]) (.read .reg (regIndex .tCalib)) [] :=
  ⟨⟨rfl, by decide⟩, rfl, ⟨rfl, by decide⟩, rfl, rfl, ⟨rfl, by decide⟩, rfl, ⟨rfl, by decide⟩⟩

/-- ControlRegisterStartsOperations: the four clauses, the third at 2 and 256. -/
theorem witness_ControlRegisterStartsOperations :
    ({ withHost [.write .reg 0x001 1] with op := some 0x21#8 } : State).busy = false ∧
    (∀ i r, decode [0x21#8] = .ok (i, r) → OperandsHeld i { withHost [.write .reg 0x001 1] with op := some 0x21#8 }) ∧
    (withHost [.write .reg 0x001 0]).busy = false ∧ (withHost [.write .reg 0x001 2]).host = .write .reg 0x001 2 :: [] ∧
    (withHost [.write .reg 0x001 256]).busy = false ∧ (withHost [.read .reg 0x001]).host = .read .reg 0x001 :: [] :=
  ⟨rfl, fun i r h => by cases h; exact ⟨fun r hr => absurd hr (by simp [operandRegs]), fun hr => absurd hr (by decide)⟩,
    rfl, rfl, rfl, rfl⟩

/-- StartWithoutOperandsFaults: OP without a value; ENC_CMD without ARG_OPCODE; DEC_FRAME without IBUF[0]. -/
theorem witness_StartWithoutOperandsFaults :
    (withHost [.write .reg 0x001 1]).op = none ∧ (withHost [.write .reg 0x001 1]).busy = false ∧
    decode [0x10#8] = .ok (.encCmd, []) ∧
    ¬ OperandsHeld .encCmd { withHost [.write .reg 0x001 1] with op := some 0x10#8 } ∧
    decode [0x01#8] = .ok (.decFrame, []) ∧
    ¬ OperandsHeld .decFrame { withHost [.write .reg 0x001 1] with op := some 0x01#8, ilen := 1#16 } :=
  ⟨rfl, rfl, rfl, fun h => h.1 .argOpcode (by simp [operandRegs]) rfl, rfl, fun h => h.2 rfl 0 (by decide) rfl⟩

/-- HostReadsHaveNoSideEffect: the six clauses, the buffers at index 71, the first also while BUSY = 1. -/
theorem witness_HostReadsHaveNoSideEffect :
    (HostActs (inProgress 0x01#8 1 [.read .reg 0x002]) (.read .reg 0x002) [] ∧ regAt 0x002 = some .status ∧
      readReg .status (inProgress 0x01#8 1 [.read .reg 0x002]) = some 1) ∧
    (HostActs (withHost [.read .reg 0x04A]) (.read .reg 0x04A) [] ∧ regAt 0x04A = some .tCalib ∧
      readReg .tCalib (withHost [.read .reg 0x04A]) = none) ∧
    HostActs (withHost [.read .ibuf 71]) (.read .ibuf 71) [] ∧ HostActs (withHost [.read .obuf 71]) (.read .obuf 71) [] ∧
    71 < Config.params.ibufCap ∧ 71 < Config.params.obufCap ∧
    Memory.read [(71, 0x01#8)] 71 = some 0x01#8 ∧ State.reset.ibuf.read 71 = none ∧ State.reset.res.obuf.read 71 = none := by
  have h := params_cap_low
  exact ⟨⟨⟨rfl, by decide⟩, rfl, rfl⟩, ⟨⟨rfl, by decide⟩, rfl, rfl⟩, ⟨rfl, by decide⟩, ⟨rfl, by decide⟩, h,
    by unfold Params.obufCap; omega, rfl, rfl, rfl⟩

/-- HostWritesOneRegister: the widest value of ARG_BAUD, and ILEN = 72. HostWritesOneInputByte: index 71, value 255. -/
theorem witness_host_writes :
    (withHost [.write .reg 0x016 4294967295]).busy = false ∧ regAt 0x016 = some .argBaud ∧ regAccess .argBaud = .rw ∧
    4294967295 < 2 ^ regWidth .argBaud ∧ (RegName.argBaud = .ilen → 4294967295 ≤ Config.params.ibufCap) ∧
    regAt 0x003 = some .ilen ∧ 72 < 2 ^ regWidth .ilen ∧ 72 ≤ Config.params.ibufCap ∧
    (withHost [.write .ibuf 71 255]).busy = false ∧ 71 < Config.params.ibufCap :=
  ⟨rfl, rfl, rfl, by decide, fun h => (by cases h), rfl, by decide, params_cap_low, rfl, params_cap_low⟩

/-- HostFaultsStopTheMachine: each item at a boundary. -/
theorem witness_HostFaultsStopTheMachine :
    regAt 0x02E = none ∧ HostActs (withHost [.read .reg 0x02E]) (.read .reg 0x02E) [] ∧
    HostActs (withHost [.write .reg 0x02E 0]) (.write .reg 0x02E 0) [] ∧
    Config.params.ibufCap ≤ 65533 ∧ Config.params.obufCap ≤ 65545 ∧
    HostActs (withHost [.read .ibuf 65533]) (.read .ibuf 65533) [] ∧
    HostActs (withHost [.read .obuf 65545]) (.read .obuf 65545) [] ∧
    HostActs (withHost [.write .obuf 0 0]) (.write .obuf 0 0) [] ∧
    regAt 0x002 = some .status ∧ regAccess .status = .ro ∧
    HostActs (withHost [.write .reg 0x002 0]) (.write .reg 0x002 0) [] ∧
    regAt 0x011 = some .argRes ∧ 2 ^ regWidth .argRes ≤ 4 ∧
    HostActs (withHost [.write .reg 0x011 4]) (.write .reg 0x011 4) [] ∧
    HostActs (withHost [.write .ibuf 0 256]) (.write .ibuf 0 256) [] ∧
    HostActs (withHost [.write .reg 0x001 2]) (.write .reg 0x001 2) [] ∧ 2 / 2 % 128 ≠ 0 ∧
    HostActs (withHost [.write .reg 0x003 65534]) (.write .reg 0x003 65534) [] ∧ Config.params.ibufCap < 65534 ∧
    HostActs (inProgress 0x01#8 1 [.write .reg 0x001 1]) (.write .reg 0x001 1) [] ∧
    (inProgress 0x01#8 1 [.write .reg 0x001 1]).busy = true ∧ regAccess .ctrl ≠ .ro := by
  have h := params_cap_high
  refine ⟨rfl, ⟨rfl, by decide⟩, ⟨rfl, by decide⟩, h, by unfold Params.obufCap; omega, ⟨rfl, by decide⟩, ⟨rfl, by decide⟩,
    ⟨rfl, by decide⟩, rfl, rfl, ⟨rfl, by decide⟩, rfl, by decide, ⟨rfl, by decide⟩, ⟨rfl, by decide⟩, ⟨rfl, by decide⟩,
    by decide, ⟨rfl, by decide⟩, by omega, ⟨rfl, by decide⟩, rfl, by decide⟩

/-- ResetInputAtAnyTime: idle and in progress. WaitPollsStatus: before and after DONE while idle, and in the last step before the
completion of an unassigned code. -/
theorem witness_reset_and_wait :
    HostActs (withHost [.reset]) .reset [] ∧ HostActs (inProgress 0x01#8 1 [.reset]) .reset [] ∧
    HostActs (withHost [.wait]) .wait [] ∧ HostActs { withHost [.wait] with status := 0x02#8 } .wait [] ∧
    HostActs (inProgress 0x2F#8 1 [.wait]) .wait [] ∧ (inProgress 0x2F#8 1 [.wait]).busy = true :=
  ⟨⟨rfl, by decide⟩, ⟨rfl, by decide⟩, ⟨rfl, by decide⟩, ⟨rfl, by decide⟩, ⟨rfl, by decide⟩, rfl⟩

/-- R137, R72: a WAIT while BUSY = 1 over an unassigned code reads 0x01, takes one step of the draw and stays. -/
theorem test_wait_while_busy :
    (nextOf (step (inProgress 0x2F#8 1 [.wait]))).map (fun t => (t.left, t.host, t.reads)) =
      some (0, [.wait], [⟨.reg, 0x002, 1⟩]) := by decide

/-- ResultsLiveUntilTheNextStart: a state with results, and a step that writes an input. -/
theorem witness_ResultsLiveUntilTheNextStart :
    let s : State := { withHost [.write .reg 0x000 1] with status := 0x02#8, res := emitted [0x55#8] }
    let t : State := { s with host := [], op := some 0x01#8 }
    step s = .next t ∧ s.busy = false ∧ t.busy = false ∧ (∀ rest, s.host ≠ .reset :: rest) ∧ s.res ≠ Results.empty :=
  ⟨rfl, rfl, rfl, fun _ h => (nomatch h), fun h => (nomatch congrArg Results.olen h)⟩

/-- DecFrameOutcome, DecAckOutcome, DecTargetEnvelopeErrors: an input for each clause: no pair; 3 bytes between the Command/Ack
pair and 1 between the Target pair; 4 and 2, with a length that agrees and one that does not. -/
theorem witness_envelope_clauses :
    (InputIs (withIn []) [] ∧ (∀ m, [] ≠ betweenCmd m) ∧ ∀ m, [] ≠ betweenTarget m) ∧
    (InputIs (withIn (betweenCmd [3#8, 0#8, 0x11#8])) (betweenCmd [3#8, 0#8, 0x11#8]) ∧ [3#8, 0#8, 0x11#8].length < 4) ∧
    (InputIs (withIn (betweenTarget [0#8])) (betweenTarget [0#8]) ∧ [0#8].length < 2) ∧
    (InputIs (withIn (betweenCmd ([2#8, 0#8, 0x34#8, 0x12#8] ++ []))) (betweenCmd ([2#8, 0#8, 0x34#8, 0x12#8] ++ [])) ∧
      (2#8).toNat + 256 * (0#8).toNat = ([] : List Byte).length + 2) ∧
    (InputIs (withIn (betweenCmd ([0#8, 0#8, 0xFF#8, 0#8] ++ []))) (betweenCmd ([0#8, 0#8, 0xFF#8, 0#8] ++ [])) ∧
      (0#8).toNat + 256 * (0#8).toNat ≠ ([] : List Byte).length + 2) ∧
    (InputIs (withIn (betweenTarget ([0#8, 0#8] ++ []))) (betweenTarget ([0#8, 0#8] ++ [])) ∧
      (0#8).toNat + 256 * (0#8).toNat = ([] : List Byte).length) ∧
    (InputIs (withIn (betweenTarget ([1#8, 0#8] ++ []))) (betweenTarget ([1#8, 0#8] ++ [])) ∧
      (1#8).toNat + 256 * (0#8).toNat ≠ ([] : List Byte).length) := by
  refine ⟨⟨inputIs_in _ (by decide), ?_, ?_⟩, ⟨inputIs_in _ (by decide), by decide⟩, ⟨inputIs_in _ (by decide), by decide⟩,
    ⟨inputIs_in _ (by decide), by decide⟩, ⟨inputIs_in _ (by decide), by decide⟩, ⟨inputIs_in _ (by decide), by decide⟩,
    ⟨inputIs_in _ (by decide), by decide⟩⟩
  · intro m h; simp [betweenCmd] at h
  · intro m h; simp [betweenTarget] at h

/-- DecTargetBasicReport, DecTargetExtendedReport, DecTargetSucceedsExactlyOnReports, KindReportsTheMatchedPair: reports with the
highest legal state byte. -/
theorem witness_reports :
    (6#8 : Byte).toNat ≤ 6 ∧
    InputIs (withIn (wireTarget (basicIntra 6#8 0#8 0#8 0#8 0#8 0#8 0#8 0#8)))
      (wireTarget (basicIntra 6#8 0#8 0#8 0#8 0#8 0#8 0#8 0#8)) ∧
    InputIs
      (withIn (wireTarget (extendedIntra 6#8 1#8 2#8 3#8 4#8 5#8 6#8 7#8 8#8 (Vector.replicate 14 9#8)
        (Vector.replicate 14 10#8) 11#8 0xFF#8)))
      (wireTarget (extendedIntra 6#8 1#8 2#8 3#8 4#8 5#8 6#8 7#8 8#8 (Vector.replicate 14 9#8)
        (Vector.replicate 14 10#8) 11#8 0xFF#8)) :=
  ⟨by decide, inputIs_in _ (by decide), inputIs_in _ (by simp [extendedIntra])⟩

/-- DecTargetIntraframeErrors: T14, T16, T15 with T7's datatype too, and T4 at the lowest illegal state byte. -/
theorem witness_DecTargetIntraframeErrors :
    (InputIs (withIn (wireTarget [])) (wireTarget []) ∧ ∀ d tb c, ([] : List Byte) ≠ [d, 0xAA#8] ++ tb ++ [0x55#8, c]) ∧
    (InputIs (withIn (wireTarget ([3#8, 0xAA#8] ++ [] ++ [0x55#8, 0#8]))) (wireTarget ([3#8, 0xAA#8] ++ [] ++ [0x55#8, 0#8])) ∧
      (3#8 : Byte) ≠ 2#8 ∧ (3#8 : Byte) ≠ 1#8) ∧
    (InputIs (withIn (wireTarget ([2#8, 0xAA#8] ++ List.replicate 6 0#8 ++ [0x55#8, 0#8])))
        (wireTarget ([2#8, 0xAA#8] ++ List.replicate 6 0#8 ++ [0x55#8, 0#8])) ∧ (List.replicate 6 0#8).length ≠ 7) ∧
    (InputIs (withIn (wireTarget ([1#8, 0xAA#8] ++ List.replicate 37 0#8 ++ [0x55#8, 0#8])))
        (wireTarget ([1#8, 0xAA#8] ++ List.replicate 37 0#8 ++ [0x55#8, 0#8])) ∧ (List.replicate 37 0#8).length ≠ 38) ∧
    (InputIs (withIn (wireTarget ([2#8, 0xAA#8] ++ (7#8 :: List.replicate 6 0#8) ++ [0x55#8, 0#8])))
        (wireTarget ([2#8, 0xAA#8] ++ (7#8 :: List.replicate 6 0#8) ++ [0x55#8, 0#8])) ∧ 7 ≤ (7#8 : Byte).toNat) ∧
    (InputIs (withIn (wireTarget ([1#8, 0xAA#8] ++ (7#8 :: List.replicate 37 0#8) ++ [0x55#8, 0#8])))
        (wireTarget ([1#8, 0xAA#8] ++ (7#8 :: List.replicate 37 0#8) ++ [0x55#8, 0#8]))) := by
  refine ⟨⟨inputIs_in _ (by decide), fun d tb c h => by simp at h⟩, ⟨inputIs_in _ (by decide), by decide, by decide⟩,
    ⟨inputIs_in _ (by decide), by decide⟩, ⟨inputIs_in _ (by decide), by decide⟩, ⟨inputIs_in _ (by decide), by decide⟩,
    inputIs_in _ (by decide)⟩

/-- DiscriminatorIsExhaustive: a shaped intraframe, and the operation's completion on it. -/
theorem witness_DiscriminatorIsExhaustive :
    ∃ t, InputIs (withIn (wireTarget ([3#8, 0xAA#8] ++ [] ++ [0x55#8, 0#8]))) (wireTarget ([3#8, 0xAA#8] ++ [] ++ [0x55#8, 0#8])) ∧
      exec .decTarget (withIn (wireTarget ([3#8, 0xAA#8] ++ [] ++ [0x55#8, 0#8]))) = .next t :=
  ⟨_, inputIs_in _ (by decide), rfl⟩

/-- A payload that ENC_CMD is given, with ARG_OPCODE = 0xFFFF. -/
def encIn (p : List Byte) : State := { withIn p with args := { Operands.empty with argOpcode := some 0xFFFF#16 } }

/-- EncCmdOutcome and EncCmdOfTheLongestPayloads: the empty payload and those of 65523, 65524 and 65535 bytes. -/
theorem witness_enc_lengths :
    (encIn []).args.argOpcode = some 0xFFFF#16 ∧ InputIs (encIn []) [] ∧
    InputIs (encIn (List.replicate 65523 0#8)) (List.replicate 65523 0#8) ∧
    InputIs (encIn (List.replicate 65524 0#8)) (List.replicate 65524 0#8) ∧
    InputIs (encIn (List.replicate 65535 0#8)) (List.replicate 65535 0#8) :=
  ⟨rfl, inputIs_withIn _ _ (by decide), inputIs_withIn _ _ (by rw [List.length_replicate]; decide),
    inputIs_withIn _ _ (by rw [List.length_replicate]; decide), inputIs_withIn _ _ (by rw [List.length_replicate]; decide)⟩

/-- What a completion emitted, copied to the input. -/
theorem copied_wire (s : State) (st : Byte) (bytes : List Byte) :
    CopiedToInput { s with status := st, res := emitted bytes } (withIn bytes) := ⟨rfl, fun _ _ => rfl⟩

/-- EncodeThenDecodeGivesBack: the longest payload of the smallest buffer, 60 bytes (E3). -/
theorem witness_EncodeThenDecodeGivesBack :
    ∃ t u, (List.replicate 60 0xAB#8).length + 12 ≤ Config.params.ibufCap ∧
      (encIn (List.replicate 60 0xAB#8)).args.argOpcode = some 0xFFFF#16 ∧
      InputIs (encIn (List.replicate 60 0xAB#8)) (List.replicate 60 0xAB#8) ∧
      exec .encCmd (encIn (List.replicate 60 0xAB#8)) = .next t ∧ CopiedToInput t u := by
  have hi : InputIs (encIn (List.replicate 60 0xAB#8)) (List.replicate 60 0xAB#8) := inputIs_withIn _ _ (by decide)
  have hb := (inputBytes_eq_some _ _).2 hi
  refine ⟨_, _, params_cap_low, rfl, hi, completes_of_build .encCmd _ 0xFFFF#16 (List.replicate 60 0xAB#8) ?_ (by decide), copied_wire _ _ _⟩
  simp only [exec, execEncCmd]
  rw [withOperand_some (encIn _).args.argOpcode 0xFFFF#16 _ rfl, withInput_some _ _ _ hb]

/-- The operands of the builder statements: each selector, all operands of SET_BASIC_PARAMS, the gates, the baud values at and
beyond the ends of the table, both settings of BLUETOOTH. -/
theorem witness_builder_operands :
    (withArgs { Operands.empty with argRes := some 0#2 }).args.argRes = some 0#2 ∧
    (withArgs { Operands.empty with argRes := some 3#2 }).args.argRes = some 3#2 ∧
    (∀ g : Fin 14, (withArgs { Operands.empty with argGate := Vector.replicate 14 (some 0xFF#8) }).args.argGate[g] =
      some (Vector.replicate 14 0xFF#8)[g]) ∧
    (∃ c, (9600#32, c) ∈ Config.params.baudTable) ∧ (∃ c, (460800#32, c) ∈ Config.params.baudTable) ∧
    (∀ c, (0#32, c) ∉ Config.params.baudTable) ∧ (9599#32).toNat < 9600 ∧ 460800 < (460801#32).toNat := by
  have h := params_baud_ends
  refine ⟨rfl, rfl, fun g => by simp [withArgs], ?_, ?_, fun c hc => ?_, by decide, by decide⟩
  · obtain ⟨⟨k, c⟩, hm, hk⟩ := List.mem_map.1 h.1; exact ⟨c, by cases hk; exact hm⟩
  · obtain ⟨⟨k, c⟩, hm, hk⟩ := List.mem_map.1 h.2; exact ⟨c, by cases hk; exact hm⟩
  · exact absurd (params_baud_keys 0#32 (List.mem_map.2 ⟨_, hc, rfl⟩)).1 (by decide)

/-- Operand registers that hold values. -/
def someArgs : Operands :=
  { Operands.empty with
    argMin := some 0#8
    argMax := some 0xFF#8
    argDur := some 0xFFFF#16
    argPol := some 1#1
    argOn := some 1#1
    argBaud := some 460801#32 }

/-- SetBasicParamsBuilder, BluetoothBuilder, SetBaudBuilder: operands that hold values. -/
theorem witness_operands_held :
    (withArgs someArgs).args.argMin = some 0#8 ∧ (withArgs someArgs).args.argMax = some 0xFF#8 ∧
    (withArgs someArgs).args.argDur = some 0xFFFF#16 ∧ (withArgs someArgs).args.argPol = some 1#1 ∧
    (withArgs someArgs).args.argOn = some 1#1 ∧ (withArgs someArgs).args.argBaud = some 460801#32 :=
  ⟨rfl, rfl, rfl, rfl, rfl, rfl⟩

/-- BuildersReadOnlyTheirOperands and BuildersAbbreviateEncCmd: a builder with a command, one without, and ENC_CMD with the same. -/
theorem witness_builders :
    readsInput .bldEnableConfig = false ∧
    builderCommand Config.params State.reset .bldEnableConfig = some (0x00FF#16, [0x01#8, 0x00#8]) ∧
    builderCommand Config.params (withArgs { Operands.empty with argRes := some 3#2 }) .bldSetResolution = none ∧
    (∃ t, exec .bldSetResolution (withArgs { Operands.empty with argRes := some 3#2 }) = .next t) ∧
    (∃ t, exec .bldEnableConfig State.reset = .next t) ∧
    ({ withIn [0x01#8, 0x00#8] with args := { Operands.empty with argOpcode := some 0x00FF#16 } } : State).args.argOpcode =
      some 0x00FF#16 ∧
    InputIs { withIn [0x01#8, 0x00#8] with args := { Operands.empty with argOpcode := some 0x00FF#16 } } [0x01#8, 0x00#8] :=
  ⟨rfl, rfl, rfl, ⟨_, rfl⟩, ⟨_, rfl⟩, rfl, inputIs_withIn _ _ (by decide)⟩

/-- BuilderFramesDecodeBack. -/
theorem witness_BuilderFramesDecodeBack :
    ∃ t u, readsInput .bldEnableConfig = false ∧ exec .bldEnableConfig State.reset = .next t ∧ t.code = 0#4 ∧
      CopiedToInput t u :=
  ⟨_, _, rfl, completes_of_build .bldEnableConfig _ 0x00FF#16 [0x01#8, 0x00#8] rfl (by decide),
    show (0x02#8 : Byte).extractLsb' 2 4 = 0#4 by decide, copied_wire _ _ _⟩

/-- OutcomeIsAFunctionOfTheInputs: two states that differ outside what ENC_CMD reads. -/
theorem witness_OutcomeIsAFunctionOfTheInputs :
    SameInputs .encCmd (encIn [0xDE#8]) { encIn [0xDE#8] with ibuf := [(0, 0xDE#8), (9, 0x77#8)], res := emitted [0x01#8] } ∧
    (encIn [0xDE#8]).ibuf ≠ [(0, 0xDE#8), (9, 0x77#8)] :=
  ⟨⟨fun r hr => by simp only [operandRegs, List.mem_singleton] at hr; subst hr; rfl,
    fun _ => ⟨rfl, fun k hk => by
      have h0 : k = 0 := Nat.lt_one_iff.1 (show k < 1 from hk)
      subst h0; rfl⟩⟩, by decide⟩

/-- OperationsLeaveTheInputs, OnlySuccessWritesResults, CodesAsTabled, KindReportsTheMatchedPair, and both clauses of
OperationCompletesWhenOperandsHeld: an operation that completes and one whose operand is missing. -/
theorem witness_completion :
    (∃ t, exec .decFrame State.reset = .next t) ∧ isDecoder .decFrame = true ∧ InputIs State.reset [] ∧
    (∃ t, exec .bldReboot State.reset = .next t) ∧ isDecoder .bldReboot = false ∧
    OperandsHeld .decFrame State.reset ∧ ¬ OperandsHeld .bldSetBaud State.reset :=
  ⟨⟨_, rfl⟩, rfl, ⟨rfl, fun k hk => absurd hk (Nat.not_lt_zero k)⟩, ⟨_, rfl⟩, rfl,
    ⟨fun r hr => absurd hr (by simp [operandRegs]), fun _ k hk => absurd hk (Nat.not_lt_zero k)⟩,
    fun h => h.1 .argBaud (by simp [operandRegs]) rfl⟩

/-- KindReportsTheMatchedPair: inputs between the two pairs, and between neither. -/
theorem witness_pairs :
    (∃ m, wireCmd 0x00FF#16 [] = betweenCmd m) ∧ (∃ m, wireTarget [] = betweenTarget m) ∧
    (∀ m, ([] : List Byte) ≠ betweenCmd m) ∧ ∀ m, ([] : List Byte) ≠ betweenTarget m :=
  ⟨⟨_, wireCmd_eq_between _ _⟩, ⟨_, wireTarget_eq_between _⟩, fun m h => by simp [betweenCmd] at h,
    fun m h => by simp [betweenTarget] at h⟩

/-- ParametersMeetTheirConstraints: a payload, a key. -/
theorem witness_ParametersMeetTheirConstraints :
    Config.params.plReboot ∈ Config.params.payloads ∧ 9600#32 ∈ Config.params.baudKeys :=
  ⟨by simp [Params.payloads], params_baud_ends.1⟩

end Sys2Proof.Tests
end

section
/-! PROOFS. The registers of the block (`spec/10_state.md`): what RO registers hold while DONE = 0 (R18), what an outcome is a
function of (R43), and which kind STATUS reports (R20). -/

namespace Sys2Proof.Machine

/-! ### Results that no operation has written -/

/-- With no result in place, STATUS is the only RO register that holds a value. -/
theorem readReg_ro_of_empty (r : RegName) (s : State) (he : s.res = Results.empty) (hro : regAccess r = .ro)
    (hne : r ≠ .status) : readReg r s = none := by
  cases r
  case status => exact absurd rfl hne
  case tMGate g => simp only [readReg, he, (results_empty_gates g).1]; rfl
  case tSGate g => simp only [readReg, he, (results_empty_gates g).2]; rfl
  case op | ctrl | ilen | argOpcode | argRes | argMin | argMax | argDur | argPol | argBaud | argOn | argGate => cases hro
  all_goals simp only [readReg, he]; rfl

/-- What stands at the index of a register is what the register holds. -/
@[simp] theorem placeValue_regIndex (r : RegName) (s : State) : placeValue .reg (regIndex r) s = some (readReg r s) := by
  simp [placeValue, regAt_regIndex]

/-- A host read of a register that holds no value stops the machine (R13). -/
theorem step_read_noValue (s : State) (rest : List HostAction) (r : RegName) (hv : readReg r s = none)
    (hact : HostActs s (.read .reg (regIndex r)) rest) : step s = .fault .readNoValue := by
  have later : readReg r { s.ticked with host := rest } = none := by rw [readReg_host, readReg_ticked, hv]
  rw [step_of_hostActs s _ rest hact, hostAct, hostRead, placeValue_regIndex, later]

/-- Settles O22: the invariant empties the results while DONE = 0, and then only STATUS among the RO registers holds a value. -/
theorem resultsHiddenUntilDone : Obligations.ResultsHiddenUntilDone := by
  intro s rest r hinv hdone hro hne
  have hv : readReg r s = none := readReg_ro_of_empty r s (hinv.hiddenUntilDone hdone) hro hne
  exact ⟨hv, step_read_noValue s rest r hv⟩

/-! ### What an operation writes, as a function of what it reads -/

/-- What an outcome makes visible of the operation: STATUS and the results of a completion, and the reason of a stop. -/
def written : Host.Outcome State Fault Refusal → Host.Outcome (Byte × Results) Fault Refusal
  | .next t => .next (t.status, t.res)
  | .fault f => .fault f
  | .refused r => .refused r

theorem written_eq_next (o : Host.Outcome State Fault Refusal) (st : Byte) (r : Results) :
    written o = .next (st, r) ↔ ∃ t, o = .next t ∧ t.status = st ∧ t.res = r := by
  cases o <;> simp [written]

theorem written_eq_fault (o : Host.Outcome State Fault Refusal) (f : Fault) : written o = .fault f ↔ o = .fault f := by
  cases o <;> simp [written]

/-- A completion writes the same STATUS and results from every state. -/
theorem written_finish (code : StatusCode) (kind : FrameKind) (r : Results) (s u : State) :
    written (finish code kind r s) = written (finish code kind r u) := rfl

theorem written_withOperand_congr {α : Type} {o o' : Option α} {f g : α → Host.Outcome State Fault Refusal} (ho : o = o')
    (h : ∀ a, written (f a) = written (g a)) : written (withOperand o f) = written (withOperand o' g) := by
  subst ho
  cases o with
  | none => rfl
  | some a => exact h a

theorem written_withInput_congr {s u : State} {f g : List Byte → Host.Outcome State Fault Refusal}
    (hin : inputBytes s = inputBytes u) (h : ∀ bytes, written (f bytes) = written (g bytes)) :
    written (withInput s f) = written (withInput u g) := by
  unfold withInput
  rw [hin]
  cases inputBytes u with
  | none => rfl
  | some bytes => exact h bytes

/-- A register's number determines what it holds. -/
theorem eq_of_held_eq {w : Nat} {o o' : Option (BitVec w)} (h : held o = held o') : o = o' :=
  (Option.map_inj_right fun _ _ e => BitVec.eq_of_toNat_eq e).1 h

/-- Gate registers that read the same give the same gate bytes. -/
theorem gateBytes_congr {s u : State} (h : ∀ r, r ∈ gateRegs → readReg r s = readReg r u) : gateBytes s = gateBytes u := by
  have gates : s.args.argGate = u.args.argGate := Vector.ext fun g hg =>
    eq_of_held_eq (h (.argGate ⟨g, hg⟩) (List.mem_map_of_mem (List.mem_finRange _)))
  rw [gateBytes, gateBytes, gates]

/-- States with the same inputs have the same `IN`, if the operation reads it. -/
theorem SameInputs.inputBytes_eq {i : Instr} {s u : State} (h : SameInputs i s u) (hi : readsInput i = true) :
    inputBytes s = inputBytes u :=
  inputBytes_congr s u (h.2 hi).1 (h.2 hi).2

/-- Every operation writes the same from states that agree on what it reads (R43). -/
theorem written_exec_congr (i : Instr) (s u : State) (h : SameInputs i s u) : written (exec i s) = written (exec i u) := by
  have hreg : ∀ r, r ∈ operandRegs i → readReg r s = readReg r u := h.1
  cases i
  case decFrame | decAck =>
    refine written_withInput_congr (h.inputBytes_eq rfl) fun bytes => ?_
    cases envDecode bytes <;> exact written_finish _ _ _ s u
  case decTarget =>
    refine written_withInput_congr (h.inputBytes_eq rfl) fun bytes => ?_
    cases envDecode bytes with
    | target intra => cases hi : intraDecode intra <;> simp only [hi] <;> exact written_finish _ _ _ s u
    | noMatch => exact written_finish _ _ _ s u
    | err => exact written_finish _ _ _ s u
    | cmdAck => exact written_finish _ _ _ s u
  case encCmd =>
    exact written_withOperand_congr (eq_of_held_eq (hreg .argOpcode (by decide))) fun _ =>
      written_withInput_congr (h.inputBytes_eq rfl) fun _ => written_finish _ _ _ s u
  case bldSetResolution =>
    exact written_withOperand_congr (eq_of_held_eq (hreg .argRes (by decide))) fun _ => written_finish _ _ _ s u
  case bldSetBasicParams =>
    exact written_withOperand_congr (eq_of_held_eq (hreg .argMin (by decide))) fun _ =>
      written_withOperand_congr (eq_of_held_eq (hreg .argMax (by decide))) fun _ =>
      written_withOperand_congr (eq_of_held_eq (hreg .argDur (by decide))) fun _ =>
      written_withOperand_congr (eq_of_held_eq (hreg .argPol (by decide))) fun _ => written_finish _ _ _ s u
  case bldSetMotionSens => exact written_withOperand_congr (gateBytes_congr hreg) fun _ => written_finish _ _ _ s u
  case bldSetStaticSens => exact written_withOperand_congr (gateBytes_congr hreg) fun _ => written_finish _ _ _ s u
  case bldSetBaud =>
    exact written_withOperand_congr (eq_of_held_eq (hreg .argBaud (by decide))) fun _ => written_finish _ _ _ s u
  case bldBluetooth =>
    exact written_withOperand_congr (eq_of_held_eq (hreg .argOn (by decide))) fun _ => written_finish _ _ _ s u
  all_goals exact written_finish _ _ _ s u

/-- Settles O50: what an operation writes, or the fault it stops with, is the same from both states. -/
theorem outcomeIsAFunctionOfTheInputs : Obligations.OutcomeIsAFunctionOfTheInputs := by
  intro i s u h
  have same : written (exec i s) = written (exec i u) := written_exec_congr i s u h
  refine ⟨fun t ht => ?_, fun f hf => ?_⟩
  · exact (written_eq_next _ _ _).1 (same.symm.trans ((written_eq_next _ _ _).2 ⟨t, ht, rfl, rfl⟩))
  · exact (written_eq_fault _ _).1 (same.symm.trans ((written_eq_fault _ _).2 hf))

/-! ### The kind a completion reports -/

/-- The kind of the magic pair an envelope decode has matched. -/
def EnvResult.pairKind : EnvResult → FrameKind
  | .noMatch => .none
  | .err _ kind => kind
  | .cmdAck _ _ => .cmdAck
  | .target _ => .target

theorem pairKind_betweenCmd (m : List Byte) : (envDecode (betweenCmd m)).pairKind = .cmdAck := by
  simp only [envDecode, matchesPair_cmd_betweenCmd, if_true]
  split
  · rfl
  · split <;> rfl

theorem pairKind_betweenTarget (m : List Byte) : (envDecode (betweenTarget m)).pairKind = .target := by
  simp only [envDecode, matchesPair_cmd_betweenTarget, matchesPair_target_betweenTarget, Bool.false_eq_true, if_false, if_true]
  split
  · rfl
  · split <;> rfl

/-- Where the outcome is a completion, STATUS.KIND is this kind. -/
def ReportsKind (kind : FrameKind) (o : Host.Outcome State Fault Refusal) : Prop :=
  ∀ t, o = .next t → t.kind = kindBits kind

theorem reportsKind_finish (code : StatusCode) (kind : FrameKind) (r : Results) (s : State) :
    ReportsKind kind (finish code kind r s) :=
  fun _ h => (finish_fields h).2.2

theorem reportsKind_withOperand {α : Type} {kind : FrameKind} {o : Option α} {f : α → Host.Outcome State Fault Refusal}
    (h : ∀ a, ReportsKind kind (f a)) : ReportsKind kind (withOperand o f) := by
  intro t ht
  obtain ⟨a, -, hf⟩ := withOperand_next o f t ht
  exact h a t hf

theorem reportsKind_withInput {kind : FrameKind} {s : State} {f : List Byte → Host.Outcome State Fault Refusal}
    (h : ∀ bytes, ReportsKind kind (f bytes)) : ReportsKind kind (withInput s f) := by
  intro t ht
  obtain ⟨bytes, -, hf⟩ := withInput_next s t f ht
  exact h bytes t hf

/-- A decode operation reports the kind of the pair its envelope decode matched, whatever it then makes of the frame. -/
theorem exec_reportsKind_decoder (i : Instr) (s : State) (bytes : List Byte) (hi : isDecoder i = true)
    (hin : inputBytes s = some bytes) : ReportsKind (envDecode bytes).pairKind (exec i s) := by
  have hd : i = .decFrame ∨ i = .decAck ∨ i = .decTarget := by simpa [isDecoder, or_assoc] using hi
  have onInput : ∀ f, ReportsKind (envDecode bytes).pairKind (f bytes) →
      ReportsKind (envDecode bytes).pairKind (withInput s f) := fun f h => by rwa [withInput_some s bytes f hin]
  rcases hd with rfl | rfl | rfl <;> refine onInput _ ?_
  · cases envDecode bytes <;> exact reportsKind_finish _ _ _ s
  · cases envDecode bytes <;> exact reportsKind_finish _ _ _ s
  · cases envDecode bytes with
    | target intra => cases h : intraDecode intra <;> simp only [h] <;> exact reportsKind_finish _ _ _ s
    | noMatch => exact reportsKind_finish _ _ _ s
    | err => exact reportsKind_finish _ _ _ s
    | cmdAck => exact reportsKind_finish _ _ _ s

/-- ENC_CMD and every builder report no kind. -/
theorem exec_reportsKind_other (i : Instr) (s : State) (hi : isDecoder i = false) : ReportsKind .none (exec i s) := by
  cases i
  case decFrame | decAck | decTarget => cases hi
  case encCmd => exact reportsKind_withOperand fun _ => reportsKind_withInput fun _ => reportsKind_finish _ _ _ s
  case bldSetBasicParams =>
    exact reportsKind_withOperand fun _ => reportsKind_withOperand fun _ => reportsKind_withOperand fun _ =>
      reportsKind_withOperand fun _ => reportsKind_finish _ _ _ s
  case bldSetResolution | bldSetMotionSens | bldSetStaticSens | bldSetBaud | bldBluetooth =>
    exact reportsKind_withOperand fun _ => reportsKind_finish _ _ _ s
  all_goals exact reportsKind_finish _ _ _ s

/-- Settles O55: KIND is the kind of the envelope decode's match, and that is the pair IN lies between. -/
theorem kindReportsTheMatchedPair : Obligations.KindReportsTheMatchedPair := by
  intro i s t ht
  refine ⟨fun hi bytes hin => ?_, fun hi => exec_reportsKind_other i s hi t ht⟩
  have kind : t.kind = kindBits (envDecode bytes).pairKind :=
    exec_reportsKind_decoder i s bytes hi ((inputBytes_eq_some s bytes).2 hin) t ht
  refine ⟨?_, ?_, fun hc htg => ?_⟩
  · rintro ⟨m, rfl⟩
    rw [kind, pairKind_betweenCmd]; rfl
  · rintro ⟨m, rfl⟩
    rw [kind, pairKind_betweenTarget]; rfl
  · rw [kind, envDecode_noMatch bytes hc htg]; rfl

end Sys2Proof.Machine
end

section
/-! PROOFS. The builders and ENC_CMD (`spec/30_encoding.md` R73): both are `BUILD` of the same command. -/

namespace Sys2Proof.Machine

/-- What has a builder's command is a builder, so it does not read `IN`. -/
theorem readsInput_of_builderCommand {i : Instr} {s : State} {cmd : Half × List Byte}
    (h : builderCommand Config.params s i = some cmd) : readsInput i = false := by
  cases i
  case decFrame | decAck | decTarget | encCmd => cases h
  all_goals rfl

/-- A builder with a command performs `BUILD` of it (R82). -/
theorem exec_eq_build_of_builderCommand {i : Instr} {s : State} {c : Half} {p : List Byte}
    (h : builderCommand Config.params s i = some (c, p)) : exec i s = build c p s := by
  obtain ⟨-, hbuild, -⟩ := (builder_cases i s (readsInput_of_builderCommand h)).1 c p h
  exact hbuild

/-- ENC_CMD performs `BUILD` of ARG_OPCODE and `IN` (R77). -/
theorem exec_encCmd_eq_build {s : State} {c : Half} {p : List Byte} (hop : s.args.argOpcode = some c)
    (hin : InputIs s p) : exec .encCmd s = build c p s := by
  calc exec .encCmd s
      = withInput s fun payload => build c payload s := withOperand_some _ c _ hop
    _ = build c p s := withInput_some s p _ ((inputBytes_eq_some s p).2 hin)

/-- Settles O48: both operations are `BUILD` of the same command, which completes with OK and writes the same from every state. -/
theorem buildersAbbreviateEncCmd : Obligations.BuildersAbbreviateEncCmd := by
  intro i s u c p hcmd hop hin
  have hs : exec i s = build c p s := exec_eq_build_of_builderCommand hcmd
  have hu : exec .encCmd u = build c p u := exec_encCmd_eq_build hop hin
  exact ⟨_, _, hs, hu, statusDone_code .ok .none, rfl, rfl, fun _ => rfl⟩

end Sys2Proof.Machine
end

section
/-! PROOFS. DEC_FRAME (`spec/40_envelope.md` R76): its completion for each result of the envelope decode, for each form of `IN`,
and on a Command/Ack frame that was emitted and copied back (R78). -/

namespace Sys2Proof.Machine

/-! ### DEC_FRAME, by what the envelope decode returns -/

/-- Emitting writes OLEN and OBUF only, so R_OPCODE may be set before or after. -/
theorem emit_rOpcode_short (c : Half) (p : List Byte) (h : p.length < 65536) :
    { Results.empty with rOpcode := some c }.emit p = { emitted p with rOpcode := some c } := by
  rw [← emit_short p h]; rfl

theorem completes_decFrame_of_noMatch {s : State} {bytes : List Byte} (hin : InputIs s bytes)
    (he : envDecode bytes = .noMatch) : Completes .decFrame s 0x06#8 Results.empty := by
  refine completes_of_finish (code := .notRecognized) (kind := .none) ?_ (by decide)
  rw [exec, execDecFrame, withInput_some s bytes _ ((inputBytes_eq_some s bytes).2 hin), he]

theorem completes_decFrame_of_err {s : State} {bytes : List Byte} {code : StatusCode} {kind : FrameKind}
    (hin : InputIs s bytes) (he : envDecode bytes = .err code kind) :
    Completes .decFrame s (statusDone code kind) Results.empty := by
  refine completes_of_finish ?_ rfl
  rw [exec, execDecFrame, withInput_some s bytes _ ((inputBytes_eq_some s bytes).2 hin), he]
  rfl

theorem completes_decFrame_of_cmdAck {s : State} {bytes : List Byte} {c : Half} {p : List Byte} (hin : InputIs s bytes)
    (he : envDecode bytes = .cmdAck c p) : Completes .decFrame s 0x42#8 { emitted p with rOpcode := some c } := by
  obtain ⟨-, hlen⟩ := eq_wireCmd_of_envDecode bytes c p he
  refine completes_of_finish (code := .ok) (kind := .cmdAck) ?_ (by decide)
  rw [exec, execDecFrame, withInput_some s bytes _ ((inputBytes_eq_some s bytes).2 hin), he,
    ← emit_rOpcode_short c p (by omega)]
  rfl

theorem completes_decFrame_of_target {s : State} {bytes intra : List Byte} (hin : InputIs s bytes)
    (he : envDecode bytes = .target intra) : Completes .decFrame s 0x82#8 (emitted intra) := by
  obtain ⟨-, hlen⟩ := eq_wireTarget_of_envDecode bytes intra he
  refine completes_of_finish (code := .ok) (kind := .target) ?_ (by decide)
  rw [exec, execDecFrame, withInput_some s bytes _ ((inputBytes_eq_some s bytes).2 hin), he,
    ← emit_short intra hlen]

/-! ### DEC_FRAME, by what IN is -/

/-- Settles O27: each form of `IN` has one envelope decode, which fixes the completion. -/
theorem decFrameOutcome : Obligations.DecFrameOutcome := by
  intro s
  refine ⟨fun bytes hin hcmd htgt => ?noPair, fun m hin hm => ?cmdShort, fun m hin hm => ?targetShort,
    fun l0 l1 o0 o1 p hin => ?cmd, fun l0 l1 t hin => ?target⟩
  case noPair => exact completes_decFrame_of_noMatch hin (envDecode_noMatch bytes hcmd htgt)
  case cmdShort => exact completes_decFrame_of_err hin (envDecode_cmd_short m hm)
  case targetShort => exact completes_decFrame_of_err hin (envDecode_target_short m hm)
  case cmd =>
    have he := envDecode_cmd l0 l1 o0 o1 p
    split <;> rename_i hl
    · rw [if_pos hl, le16_eq_ofNat] at he
      exact completes_decFrame_of_cmdAck hin he
    · rw [if_neg hl] at he
      exact completes_decFrame_of_err hin he
  case target =>
    have he := envDecode_target l0 l1 t
    split <;> rename_i hl
    · rw [if_pos hl] at he
      exact completes_decFrame_of_target hin he
    · rw [if_neg hl] at he
      exact completes_decFrame_of_err hin he

/-! ### Encode, copy, decode -/

/-- What an operation emitted is `IN` once the host has copied it (R139). -/
theorem inputIs_of_copied_emitted {t u : State} {bytes : List Byte} (hres : t.res = emitted bytes)
    (hlen : bytes.length < 65536) (hcopy : CopiedToInput t u) : InputIs u bytes := by
  refine (inputBytes_eq_some u bytes).1 (inputBytes_of_copied t u bytes hlen ?_ hcopy)
  rw [hres, olenOf_short bytes hlen]; rfl

/-- DEC_FRAME gives back the command of an emitted frame whose length OLEN can hold. -/
theorem completes_decFrame_of_copied_wireCmd {t u : State} {c : Half} {p : List Byte}
    (hres : t.res = emitted (wireCmd c p)) (hlen : p.length < 65524) (hcopy : CopiedToInput t u) :
    Completes .decFrame u 0x42#8 { emitted p with rOpcode := some c } := by
  have hin : InputIs u (wireCmd c p) := inputIs_of_copied_emitted hres (by rw [wireCmd_length]; omega) hcopy
  exact completes_decFrame_of_cmdAck hin (envDecode_wireCmd c p (by omega))

/-- Settles O37: ENC_CMD emits the wire format of R59, and a payload that fits IBUF with its frame keeps the length within
OLEN's 16 bits. -/
theorem encodeThenDecodeGivesBack : Obligations.EncodeThenDecodeGivesBack := by
  intro s t u c p hcap hop hin henc hcopy
  have hlen : p.length < 65524 := by have := params_cap_high; omega
  have hdone : exec .encCmd s = .next { s with status := 0x02#8, res := emitted (wireCmd c p) } :=
    completes_of_build .encCmd s c p (exec_encCmd_eq_build hop hin) hlen
  have ht : t = { s with status := 0x02#8, res := emitted (wireCmd c p) } := Host.Outcome.next.inj (henc.symm.trans hdone)
  exact completes_decFrame_of_copied_wireCmd (by rw [ht]) hlen hcopy

end Sys2Proof.Machine
end

section
/-! PROOFS. The Command Builder (`spec/41_command_builders.md`): a builder with a command emits its frame, one whose operand
selects none ends with an error, and DEC_FRAME gives the command back (R105). -/

namespace Sys2Proof.Machine

/-! ### A builder with a command, and one without -/

/-- The payload of a builder's command has at most 60 bytes (R81). -/
theorem payload_le_of_builderCommand {i : Instr} {s : State} {c : Half} {p : List Byte}
    (h : builderCommand Config.params s i = some (c, p)) : p.length ≤ 60 := by
  obtain ⟨hlen, -, -⟩ := (builder_cases i s (readsInput_of_builderCommand h)).1 c p h
  exact hlen

/-- The opcode of a builder's command is one of the registry's (R80). -/
theorem mem_wireOpcodes_of_builderCommand {i : Instr} {s : State} {c : Half} {p : List Byte}
    (h : builderCommand Config.params s i = some (c, p)) : c ∈ Config.params.wireOpcodes := by
  obtain ⟨-, -, hmem⟩ := (builder_cases i s (readsInput_of_builderCommand h)).1 c p h
  exact hmem

/-- A builder with a command completes with OK and the command's frame (R82). -/
theorem completes_of_builderCommand {i : Instr} {s : State} {c : Half} {p : List Byte}
    (h : builderCommand Config.params s i = some (c, p)) : Completes i s 0x02#8 (emitted (wireCmd c p)) :=
  completes_of_build i s c p (exec_eq_build_of_builderCommand h)
    (Nat.lt_of_le_of_lt (payload_le_of_builderCommand h) (by decide))

/-- A builder that completes with CODE = OK has a command. -/
theorem exists_builderCommand_of_ok {i : Instr} {s t : State} (hi : readsInput i = false) (ht : exec i s = .next t)
    (hok : t.code = 0#4) : ∃ c p, builderCommand Config.params s i = some (c, p) := by
  obtain ⟨-, hwithout⟩ := builder_cases i s hi
  cases h : builderCommand Config.params s i with
  | none =>
    obtain ⟨hcode, -⟩ := hwithout h t ht
    exact absurd hok hcode
  | some cmd => exact ⟨cmd.1, cmd.2, rfl⟩

/-- The results after an operation that is known to complete with them. -/
theorem Completes.res_eq {i : Instr} {s t : State} {status : Byte} {r : Results} (h : Completes i s status r)
    (ht : exec i s = .next t) : t.res = r := by
  rw [Host.Outcome.next.inj (ht.symm.trans h)]

/-- Settles O49: success means that the builder had a command, whose emitted frame DEC_FRAME decodes. -/
theorem builderFramesDecodeBack : Obligations.BuilderFramesDecodeBack := by
  intro i s t u hi ht hok hcopy
  obtain ⟨c, p, hcmd⟩ := exists_builderCommand_of_ok hi ht hok
  have hres : t.res = emitted (wireCmd c p) := (completes_of_builderCommand hcmd).res_eq ht
  have hlen : p.length ≤ 60 := payload_le_of_builderCommand hcmd
  exact ⟨c, p, hcmd, mem_wireOpcodes_of_builderCommand hcmd,
    completes_decFrame_of_copied_wireCmd hres (by omega) hcopy⟩

/-! ### Builders without operands, and builders that take any value of their operands -/

/-- Settles O38: both commands are constants; the frame of the first is written out. -/
theorem sessionBuilders : Obligations.SessionBuilders := by
  intro s
  have hframe : wireCmd 0x00FF#16 [0x01#8, 0x00#8] =
      [0xFD#8, 0xFC#8, 0xFB#8, 0xFA#8, 0x04#8, 0x00#8, 0xFF#8, 0x00#8, 0x01#8, 0x00#8, 0x04#8, 0x03#8, 0x02#8, 0x01#8] := by
    decide
  refine ⟨?_, completes_of_builderCommand rfl⟩
  rw [← hframe]
  exact completes_of_builderCommand rfl

/-- Settles O40: every choice of the four operands has a command. -/
theorem setBasicParamsBuilder : Obligations.SetBasicParamsBuilder := by
  intro s lo hi dur pol hlo hhi hdur hpol
  exact completes_of_builderCommand (by simp [builderCommand, hlo, hhi, hdur, hpol])

/-- Settles O41: the payload of both commands is the gate bytes. -/
theorem sensitivityBuilders : Obligations.SensitivityBuilders := by
  intro s gates hgates
  have hbytes : allHeld s.args.argGate.toList = some gates.toList := gateBytes_eq s gates hgates
  exact ⟨completes_of_builderCommand (by simp [builderCommand, hbytes]),
    completes_of_builderCommand (by simp [builderCommand, hbytes])⟩

/-- Settles O43: ARG_ON selects one of two payloads of the same opcode. -/
theorem bluetoothBuilder : Obligations.BluetoothBuilder := by
  intro s
  exact ⟨fun hon => completes_of_builderCommand (by simp [builderCommand, hon]),
    fun hoff => completes_of_builderCommand (by simp [builderCommand, hoff])⟩

/-! ### Builders whose operand may select no command -/

/-- The selector 3 ends with INVALID_OPERAND (R85). -/
theorem exec_bldSetResolution_three {s : State} (h : s.args.argRes = some 3#2) :
    exec .bldSetResolution s = raise .invalidOperand .none s :=
  withOperand_some _ 3#2 _ h

/-- Settles O39: three selectors have a command, the fourth an error. -/
theorem setResolutionBuilder : Obligations.SetResolutionBuilder := by
  intro s
  refine ⟨fun h => ?sel0, fun h => ?sel1, fun h => ?sel2, fun h => ?sel3⟩
  case sel0 | sel1 | sel2 => exact completes_of_builderCommand (by simp [builderCommand, h])
  case sel3 => exact completes_of_finish (exec_bldSetResolution_three h) (by decide)

/-- BLD_SET_BAUD performs `BUILD` of the code that the table gives, or ends with UNKNOWN_BAUD_RATE (R89). -/
theorem exec_bldSetBaud {s : State} {v : BitVec 32} (h : s.args.argBaud = some v) :
    exec .bldSetBaud s =
      buildSelected .unknownBaudRate Config.params.opcSetBaud ((baudCode Config.params v).map u16le) s :=
  withOperand_some _ v _ h

/-- An entry of the table is what looking its key up gives: no key stands twice (R2). -/
theorem lookup_baudTable {v : BitVec 32} {c : Half} (h : (v, c) ∈ Config.params.baudTable) :
    Config.params.baudTable.lookup v = some c :=
  lookup_of_mem_nodup _ v c params_baud_nodup h

/-- No key of the table lies outside 9600 to 460800 (R2). -/
theorem notMem_baudTable_of_outside {v : BitVec 32} (h : v.toNat < 9600 ∨ 460800 < v.toNat) (c : Half) :
    (v, c) ∉ Config.params.baudTable := by
  intro hmem
  have hkey := params_baud_keys v (List.mem_map_of_mem hmem)
  omega

/-- A baud value that is no key ends with UNKNOWN_BAUD_RATE (R89, R120). -/
theorem completes_bldSetBaud_unknown {s : State} {v : BitVec 32} (hv : s.args.argBaud = some v)
    (h : ∀ c, (v, c) ∉ Config.params.baudTable) : Completes .bldSetBaud s 0x1A#8 Results.empty := by
  have hcode : baudCode Config.params v = none := lookup_eq_none_of_notMem _ v h
  refine completes_of_finish (code := .unknownBaudRate) (kind := .none) ?_ (by decide)
  rw [exec_bldSetBaud hv, hcode]
  rfl

/-- Settles O42: a key has its one entry as command; a value outside the table's ends is no key. -/
theorem setBaudBuilder : Obligations.SetBaudBuilder := by
  intro s v hv
  refine ⟨fun c hc => ?key, fun h => completes_bldSetBaud_unknown hv h,
    fun h => completes_bldSetBaud_unknown hv (notMem_baudTable_of_outside h)⟩
  case key => exact completes_of_builderCommand (by simp [builderCommand, hv, lookup_baudTable hc])

end Sys2Proof.Machine
end

section
/-! PROOFS. DEC_TARGET on a Target frame (`spec/42_target_decoder.md` R109): its completion for each result of the intraframe
decode, on an extended report (R108), and what the discriminator decides (R110). -/

namespace Sys2Proof.Machine

/-! ### DEC_TARGET, by what the intraframe decode returns -/

/-- `IN` has at most 65535 bytes, so the intraframe of a Target frame has a length that its length field holds (R21, R60). -/
theorem intra_length_lt_of_inputIs {s : State} {intra : List Byte} (hin : InputIs s (wireTarget intra)) :
    intra.length < 65536 := by
  obtain ⟨hlen, -⟩ := hin
  have hilen := s.ilen.isLt
  rw [wireTarget_length] at hlen
  omega

/-- An intraframe that does not decode gives its error, with the kind of a Target frame. -/
theorem exec_decTarget_of_intra_err {s : State} {intra : List Byte} {code : StatusCode}
    (hin : InputIs s (wireTarget intra)) (he : intraDecode intra = .err code) :
    exec .decTarget s = raise code .target s := by
  rw [exec, execDecTarget, withInput_some s _ _ ((inputBytes_eq_some s _).2 hin),
    envDecode_wireTarget intra (intra_length_lt_of_inputIs hin)]
  simp only [he]

/-- An intraframe that decodes gives OK and its registers. -/
theorem exec_decTarget_of_intra_ok {s : State} {intra : List Byte} {basic : BasicData} {eng : Option EngData} {calib : Byte}
    (hin : InputIs s (wireTarget intra)) (he : intraDecode intra = .ok basic eng calib) :
    exec .decTarget s = finish .ok .target (targetResults basic eng calib) s := by
  rw [exec, execDecTarget, withInput_some s _ _ ((inputBytes_eq_some s _).2 hin),
    envDecode_wireTarget intra (intra_length_lt_of_inputIs hin)]
  simp only [he]

/-- Success on a Target frame means that its intraframe decoded, and the registers are the decoded ones. -/
theorem exists_intraDecode_of_decTarget_ok {s t : State} {intra : List Byte} (hin : InputIs s (wireTarget intra))
    (ht : exec .decTarget s = .next t) (hok : t.code = 0#4) :
    ∃ basic eng calib, intraDecode intra = .ok basic eng calib ∧ t.res = targetResults basic eng calib := by
  cases he : intraDecode intra with
  | err code =>
    obtain ⟨hcode, -, -⟩ := finish_fields ((exec_decTarget_of_intra_err hin he).symm.trans ht)
    rw [hok] at hcode
    rcases intraDecode_err intra code he with rfl | rfl | rfl <;> exact absurd hcode (by decide)
  | ok basic eng calib =>
    obtain ⟨-, hres, -⟩ := finish_fields ((exec_decTarget_of_intra_ok hin he).symm.trans ht)
    exact ⟨basic, eng, calib, rfl, hres⟩

/-! ### An extended report -/

/-- Settles O31: the intraframe decodes to its fields, and each gate register holds the gate byte of its index. -/
theorem decTargetExtendedReport : Obligations.DecTargetExtendedReport := by
  intro s st mLo mHi mEn sLo sHi sEn b1 b2 mg sg light calib hst hin
  have hdec := intraDecode_extended st mLo mHi mEn sLo sHi sEn b1 b2 mg sg light calib hst
  rw [le16_eq_ofNat, le16_eq_ofNat] at hdec
  refine ⟨mg.map some, sg.map some, fun g => ⟨by simp, by simp⟩, ?_⟩
  exact completes_of_finish (exec_decTarget_of_intra_ok hin hdec) (by decide)

/-! ### The discriminator -/

/-- T_ENG says whether engineering data was decoded (R37). -/
@[simp] theorem targetResults_tEng (basic : BasicData) (eng : Option EngData) (calib : Byte) :
    (targetResults basic eng calib).tEng = some (if eng.isSome then 1#1 else 0#1) := by
  cases eng <;> rfl

/-- A shaped intraframe of an unknown datatype (R106). -/
theorem intraDecode_unknown {d : Byte} (tb : List Byte) (c : Byte) (h1 : d ≠ 0x01#8) (h2 : d ≠ 0x02#8) :
    intraDecode ([d, 0xAA#8] ++ tb ++ [0x55#8, c]) = .err .unknownDiscriminator := by
  have hcount : targetByteCount d = none := by rw [targetByteCount, if_neg h2, if_neg h1]
  rw [intraDecode_shaped, hcount]

/-- Engineering data is decoded exactly for datatype 1 (R106). -/
theorem isSome_eng_of_intraDecode {d : Byte} {tb : List Byte} {c : Byte} {basic : BasicData} {eng : Option EngData}
    {calib : Byte} (h : intraDecode ([d, 0xAA#8] ++ tb ++ [0x55#8, c]) = .ok basic eng calib) :
    eng.isSome = decide (d = 0x01#8) := by
  rw [intraDecode_shaped] at h
  split at h
  case h_1 => cases h
  case h_2 need _ =>
    by_cases hlen : tb.length ≠ need
    case pos => rw [if_pos hlen] at h; cases h
    by_cases hstate : 0x06 < (byteAt tb 0).toNat
    case pos => rw [if_neg hlen, if_pos hstate] at h; cases h
    rw [if_neg hlen, if_neg hstate] at h
    obtain ⟨-, rfl, -⟩ := IntraResult.ok.inj h
    by_cases hd : d = 0x01#8
    · rw [if_pos hd, decide_eq_true hd, Option.isSome_some]
    · rw [if_neg hd, decide_eq_false hd, Option.isSome_none]

/-- Settles O33: success means that the intraframe decoded, with engineering data exactly for datatype 1; an unknown datatype does
not decode. -/
theorem discriminatorIsExhaustive : Obligations.DiscriminatorIsExhaustive := by
  intro s t d tb c hin ht
  have onSuccess (hok : t.code = 0#4) : t.res.tEng = some (if d = 0x01#8 then 1#1 else 0#1) := by
    obtain ⟨basic, eng, calib, hdec, hres⟩ := exists_intraDecode_of_decTarget_ok hin ht hok
    rw [hres, targetResults_tEng, isSome_eng_of_intraDecode hdec]
    simp
  refine ⟨fun hd hok => ?engPresent, fun hd hok => ?engAbsent, fun h1 h2 => ?unknown⟩
  case engPresent => rw [onSuccess hok, if_pos hd]
  case engAbsent => rw [onSuccess hok, hd]; rfl
  case unknown =>
    have hexec := exec_decTarget_of_intra_err hin (intraDecode_unknown tb c h1 h2)
    obtain ⟨hcode, -, -⟩ := finish_fields (hexec.symm.trans ht)
    exact hcode

end Sys2Proof.Machine
end

section
/-! PROOFS. DEC_ACK (`spec/43_ack_decoder.md` R112): it differs from DEC_FRAME only where no magic pair matches or the frame is a
well-formed Target frame; both are malformed for it. -/

namespace Sys2Proof.Machine

/-! ### DEC_ACK, by what the envelope decode returns -/

/-- No pair is a malformed frame for DEC_ACK (C1). -/
theorem completes_decAck_of_noMatch {s : State} {bytes : List Byte} (hin : InputIs s bytes)
    (he : envDecode bytes = .noMatch) : Completes .decAck s 0x0A#8 Results.empty := by
  refine completes_of_finish (code := .frameMalformed) (kind := .none) ?_ (by decide)
  rw [exec, execDecAck, withInput_some s bytes _ ((inputBytes_eq_some s bytes).2 hin), he]
  rfl

/-- A Target frame is a malformed frame for DEC_ACK. -/
theorem completes_decAck_of_target {s : State} {bytes intra : List Byte} (hin : InputIs s bytes)
    (he : envDecode bytes = .target intra) : Completes .decAck s 0x8A#8 Results.empty := by
  refine completes_of_finish (code := .frameMalformed) (kind := .target) ?_ (by decide)
  rw [exec, execDecAck, withInput_some s bytes _ ((inputBytes_eq_some s bytes).2 hin), he]
  rfl

/-- On an envelope error and on a Command/Ack frame DEC_ACK does what DEC_FRAME does (R113). -/
theorem exec_decAck_eq_decFrame {s : State} {bytes : List Byte} (hin : InputIs s bytes)
    (hmatch : envDecode bytes ≠ .noMatch) (htarget : ∀ intra, envDecode bytes ≠ .target intra) :
    exec .decAck s = exec .decFrame s := by
  have hbytes : inputBytes s = some bytes := (inputBytes_eq_some s bytes).2 hin
  rw [exec, exec, execDecAck, execDecFrame, withInput_some s bytes _ hbytes, withInput_some s bytes _ hbytes]
  cases he : envDecode bytes with
  | noMatch => exact absurd he hmatch
  | err => rfl
  | cmdAck => rfl
  | target intra => exact absurd he (htarget intra)

theorem exec_decAck_eq_decFrame_of_err {s : State} {bytes : List Byte} {code : StatusCode} {kind : FrameKind}
    (hin : InputIs s bytes) (he : envDecode bytes = .err code kind) : exec .decAck s = exec .decFrame s :=
  exec_decAck_eq_decFrame hin (by simp [he]) (by simp [he])

/-- Between the Command/Ack pair the envelope decode ends in an error or a Command/Ack frame. -/
theorem exec_decAck_eq_decFrame_of_betweenCmd {s : State} {m : List Byte} (hin : InputIs s (betweenCmd m)) :
    exec .decAck s = exec .decFrame s := by
  have hkind : (envDecode (betweenCmd m)).pairKind = .cmdAck := pairKind_betweenCmd m
  refine exec_decAck_eq_decFrame hin (fun he => ?_) (fun intra he => ?_) <;> rw [he] at hkind <;> cases hkind

/-- Where the two operations agree, DEC_ACK completes as DEC_FRAME does. -/
theorem completes_decAck_iff_decFrame {s : State} (h : exec .decAck s = exec .decFrame s) (status : Byte) (r : Results) :
    Completes .decAck s status r ↔ Completes .decFrame s status r := by
  rw [Completes, Completes, h]

/-! ### DEC_ACK, by what IN is -/

/-- Settles O28: DEC_FRAME's outcomes (R76), but for no pair and for a well-formed Target frame. -/
theorem decAckOutcome : Obligations.DecAckOutcome := by
  intro s
  obtain ⟨-, frameCmdShort, frameTargetShort, frameCmd, frameTarget⟩ := decFrameOutcome s
  refine ⟨fun bytes hin hcmd htgt => ?noPair, fun m hin hm => ?cmdShort, fun m hin hm => ?targetShort,
    fun l0 l1 o0 o1 p hin => ?cmd, fun l0 l1 t hin => ?target⟩
  case noPair => exact completes_decAck_of_noMatch hin (envDecode_noMatch bytes hcmd htgt)
  case cmdShort =>
    exact (completes_decAck_iff_decFrame (exec_decAck_eq_decFrame_of_betweenCmd hin) _ _).2 (frameCmdShort m hin hm)
  case targetShort =>
    have same := exec_decAck_eq_decFrame_of_err hin (envDecode_target_short m hm)
    exact (completes_decAck_iff_decFrame same _ _).2 (frameTargetShort m hin hm)
  case cmd =>
    simp only [completes_decAck_iff_decFrame (exec_decAck_eq_decFrame_of_betweenCmd hin)]
    exact frameCmd l0 l1 o0 o1 p hin
  case target =>
    have he := envDecode_target l0 l1 t
    have hframe := frameTarget l0 l1 t hin
    split <;> rename_i hl
    · rw [if_pos hl] at he
      exact completes_decAck_of_target hin he
    · rw [if_neg hl] at he hframe
      exact (completes_decAck_iff_decFrame (exec_decAck_eq_decFrame_of_err hin he) _ _).2 hframe

end Sys2Proof.Machine
end

section
/-! PROOFS. The exceptions (`spec/60_exceptions.md`): the fault of a START without its operands (R123), the errors of an intraframe
in their order (R124 step 5), and what an operation leaves as it was (R125). -/

namespace Sys2Proof.Machine

/-! ### A START that finds a value missing -/

/-- Writing 1 to CTRL while no operation is in progress is a START (R15). -/
theorem step_start {s : State} {rest : List HostAction} (hb : s.busy = false) (hh : s.host = .write .reg 0x001 1 :: rest) :
    step s = startOp { s with host := rest } := by
  have hidle : ({ s with host := rest } : State).busy = false := hb
  have hctrl : regAt 0x001 = some .ctrl := regAt_regIndex .ctrl
  calc step s
      = hostTurn s := step_idle s hb
    _ = writeReg .ctrl 1 { s with host := rest } := by simp only [hostTurn, hh, hostAct, hostWrite, hctrl]
    _ = startOp { s with host := rest } := by simp [writeReg, regAccess, hidle, regWidth, writeCtrl]

/-- A missing operand is one of the two faults of R123. -/
theorem operandFault_of_not_operandsHeld {i : Instr} {s : State} (h : ¬ OperandsHeld i s) :
    operandFault i s = some .operandNoValue ∨ operandFault i s = some .inputNoValue := by
  rw [← operandFault_eq_none] at h
  unfold operandFault at h ⊢
  cases hr : regsHeld i s with
  | false => exact .inl rfl
  | true =>
    cases hin : inputHeld i s with
    | false => exact .inr rfl
    | true => rw [hr, hin] at h; exact absurd rfl h

/-- START takes the fault that the operands give. -/
theorem startOp_of_operandFault {s : State} {w : Byte} {i : Instr} {r : List Byte} {f : Fault} (hop : s.op = some w)
    (hd : decode [w] = .ok (i, r)) (hf : operandFault i s = some f) : startOp s = .fault f := by
  simp only [startOp, hop, hd, hf]

/-- Settles O16: the step is a START, which names OP or the missing operand. -/
theorem startWithoutOperandsFaults : Obligations.StartWithoutOperandsFaults := by
  intro s rest hb hh
  rw [step_start hb hh]
  refine ⟨fun hop => ?noOp, fun w i r hop hd hmiss => ?noOperand⟩
  case noOp => simp only [startOp, hop]
  case noOperand =>
    have hmiss' : ¬ OperandsHeld i { s with host := rest } := fun h => hmiss (operandsHeld_host i s rest h)
    exact (operandFault_of_not_operandsHeld hmiss').imp (startOp_of_operandFault hop hd) (startOp_of_operandFault hop hd)

/-! ### The errors of an intraframe -/

/-- A shaped intraframe whose target bytes are not as many as its datatype asks for (R106, R65). -/
theorem intraDecode_wrongCount {d : Byte} {tb : List Byte} {need : Nat} (c : Byte) (hd : targetByteCount d = some need)
    (hlen : tb.length ≠ need) : intraDecode ([d, 0xAA#8] ++ tb ++ [0x55#8, c]) = .err .frameMalformed := by
  simp only [intraDecode_shaped, hd, if_pos hlen]

/-- A shaped intraframe with the right count and an illegal state byte (R106, R119). -/
theorem intraDecode_illegalState {d st : Byte} {tb : List Byte} {need : Nat} (c : Byte) (hd : targetByteCount d = some need)
    (hlen : (st :: tb).length = need) (hst : 7 ≤ st.toNat) :
    intraDecode ([d, 0xAA#8] ++ (st :: tb) ++ [0x55#8, c]) = .err .unknownTargetState := by
  have hstate : 0x06 < (byteAt (st :: tb) 0).toNat := hst
  simp only [intraDecode_shaped, hd, if_neg (not_not_intro hlen), if_pos hstate]

/-- DEC_TARGET ends with the error of the intraframe decode, without results. -/
theorem completes_decTarget_of_intra_err {s : State} {intra : List Byte} {code : StatusCode}
    (hin : InputIs s (wireTarget intra)) (he : intraDecode intra = .err code) :
    Completes .decTarget s (statusDone code .target) Results.empty :=
  completes_of_finish (exec_decTarget_of_intra_err hin he) rfl

/-- Settles O32: each clause is one error of the intraframe decode. -/
theorem decTargetIntraframeErrors : Obligations.DecTargetIntraframeErrors := by
  intro s
  refine ⟨fun t hin hshape => ?shape, fun d tb c hin h2 h1 => ?discriminator, fun d tb c hin hcount => ?count,
    fun d st tb c hin hcount hst => ?state⟩
  case shape => exact completes_decTarget_of_intra_err hin (intraDecode_unshaped t hshape)
  case discriminator => exact completes_decTarget_of_intra_err hin (intraDecode_unknown tb c h1 h2)
  case count =>
    rcases hcount with ⟨rfl, hlen⟩ | ⟨rfl, hlen⟩ <;>
      exact completes_decTarget_of_intra_err hin (intraDecode_wrongCount c rfl hlen)
  case state =>
    rcases hcount with ⟨rfl, hlen⟩ | ⟨rfl, hlen⟩ <;>
      exact completes_decTarget_of_intra_err hin (intraDecode_illegalState c rfl (congrArg (· + 1) hlen) hst)

/-! ### What an operation leaves as it was -/

/-- STATUS and the results stand in RO registers only. -/
theorem readReg_of_status_res (r : RegName) (s : State) (st : Byte) (res : Results) (hr : regAccess r ≠ .ro) :
    readReg r { s with status := st, res := res } = readReg r s := by
  cases r
  case op | ctrl | ilen | argOpcode | argRes | argMin | argMax | argDur | argPol | argBaud | argOn | argGate => rfl
  all_goals exact absurd rfl hr

/-- A completion without success writes no result (R114). -/
theorem res_eq_empty_of_code_ne_ok {i : Instr} {s t : State} (ht : exec i s = .next t) (hc : t.code ≠ 0#4) :
    t.res = Results.empty := by
  cases exec_completesAs i s t ht with
  | ok kind r hfin => exact absurd (finish_fields hfin).1 hc
  | notOk code kind hfin _ => exact (finish_fields hfin).2.1

/-- Settles O51: a completion changes STATUS and the results alone, and without success it empties the results. -/
theorem operationsLeaveTheInputs : Obligations.OperationsLeaveTheInputs := by
  intro i s t ht
  have hempty : t.code ≠ 0#4 → t.res = Results.empty := res_eq_empty_of_code_ne_ok ht
  obtain ⟨code, kind, res, rfl⟩ := exec_next i s t ht
  exact ⟨fun r hr => readReg_of_status_res r s _ res hr, fun _ => rfl, rfl, rfl, rfl, rfl, rfl,
    statusDone_busy code kind, statusDone_done code kind, hempty⟩

end Sys2Proof.Machine
end

section
/-! PROOFS. Reset and hazards (`spec/70_reset_and_hazards.md`): what reset leaves (R133), the host faults (R136), and the block
while an operation is in progress (R137). -/

namespace Sys2Proof.Machine

/-! ### What reset leaves -/

/-- An operand register that nothing has written holds no value. -/
theorem readReg_rw_of_empty (r : RegName) (s : State) (he : s.args = Operands.empty) (ho : s.op = none)
    (hrw : regAccess r = .rw) (hne : r ≠ .ilen) : readReg r s = none := by
  cases r
  case ilen => exact absurd rfl hne
  case op => rw [readReg, ho]; rfl
  case argGate g => simp [readReg, he, Operands.empty, held]
  case argOpcode | argRes | argMin | argMax | argDur | argPol | argBaud | argOn => rw [readReg, he]; rfl
  all_goals exact absurd hrw nofun

/-- CTRL is the one register that the host only writes (R12, R15). -/
theorem eq_ctrl_of_regAccess_w {r : RegName} (h : regAccess r = .w) : r = .ctrl := by
  cases r
  case ctrl => rfl
  all_goals exact absurd h nofun

/-- Settles O24: the RO registers are empty with the results, the RW registers with OP and the operands. -/
theorem resetLeavesTheTabledValues : Obligations.ResetLeavesTheTabledValues := by
  refine ⟨rfl, rfl, rfl, fun r hstatus hilen hctrl => ?register, fun a => ⟨rfl, rfl⟩⟩
  case register =>
    cases hacc : regAccess r with
    | ro => exact readReg_ro_of_empty r _ reset_res hacc hstatus
    | rw => exact readReg_rw_of_empty r _ reset_args reset_op hacc hilen
    | w => exact absurd (eq_ctrl_of_regAccess_w hacc) hctrl

/-! ### Legal values and legal actions, as propositions -/

/-- The values a register takes (R136 items 3 to 5). -/
theorem valueOk_iff (p : Params) (r : RegName) (v : Nat) :
    valueOk p r v = true ↔ v < 2 ^ regWidth r ∧ (r = .ctrl → v < 2) ∧ (r = .ilen → v ≤ p.ibufCap) := by
  cases r <;> simp [valueOk]

/-- A register write is legal at an assigned index of a writable register, with a value the register takes. -/
theorem wf_write_reg_iff (p : Params) (n v : Nat) :
    (HostAction.write .reg n v).wf p = true ↔ ∃ r, regAt n = some r ∧ regAccess r ≠ .ro ∧ valueOk p r v = true := by
  cases h : regAt n <;> simp [HostAction.wf, h]

/-- A read is legal where something stands, with its value or with none (R136 item 1). -/
theorem wf_read_iff (sp : Space) (n : Nat) (s : State) :
    (HostAction.read sp n).wf Config.params = true ↔ placeValue sp n s ≠ none := by
  cases sp <;> simp [HostAction.wf, placeValue, Option.isSome_iff_ne_none]

/-! ### A host action goes through only if it is legal -/

theorem startOp_ne_refused (s : State) (q : Refusal) : startOp s ≠ .refused q := by
  unfold startOp
  split
  · nofun
  · split
    · nofun
    · split <;> nofun

theorem writeCtrl_ne_refused (v : Nat) (s : State) (q : Refusal) : writeCtrl v s ≠ .refused q := by
  unfold writeCtrl
  split
  · nofun
  · split
    · exact startOp_ne_refused s q
    · nofun

theorem writeReg_ne_refused (r : RegName) (v : Nat) (s : State) (q : Refusal) : writeReg r v s ≠ .refused q := by
  unfold writeReg
  split
  · nofun
  split
  · nofun
  split
  · nofun
  split
  · exact writeCtrl_ne_refused v s q
  · split <;> nofun

theorem hostWrite_ne_refused (sp : Space) (n v : Nat) (s : State) (q : Refusal) : hostWrite sp n v s ≠ .refused q := by
  cases sp with
  | reg =>
    simp only [hostWrite]
    split
    · nofun
    · exact writeReg_ne_refused _ v s q
  | ibuf =>
    simp only [hostWrite]
    split
    · nofun
    · split
      · nofun
      · split <;> nofun
  | obuf => simp only [hostWrite]; split <;> nofun

/-- The host's port refuses no action: each goes through or is a fault. -/
theorem hostAct_ne_refused (a : HostAction) (rest : List HostAction) (s : State) (q : Refusal) :
    hostAct a rest s ≠ .refused q := by
  cases a with
  | write sp n v => exact hostWrite_ne_refused sp n v _ q
  | read sp n => simp only [hostAct, hostRead]; split <;> nofun
  | wait | reset | idle => nofun

/-- A register write that goes through is legal. -/
theorem wf_of_writeReg_next {r : RegName} {n v : Nat} {s t : State} (hr : regAt n = some r) (h : writeReg r v s = .next t) :
    (HostAction.write .reg n v).wf Config.params = true := by
  refine (wf_write_reg_iff _ n v).2 ⟨r, hr, ?_⟩
  rw [valueOk_iff]
  obtain ⟨-, ⟨rfl, rfl, -⟩ | ⟨rfl, rfl, -⟩ | ⟨hrw, hv, hilen, -⟩⟩ := writeReg_next r v s t h
  · decide
  · decide
  · refine ⟨by rw [hrw]; decide, hv, ?_, hilen⟩
    rintro rfl
    cases hrw

/-- Only legal actions go through. -/
theorem wf_of_hostAct_next {a : HostAction} {rest : List HostAction} {s t : State} (h : hostAct a rest s = .next t) :
    a.wf Config.params = true := by
  cases a with
  | write sp n v =>
    obtain ⟨r, rfl, hr, hw⟩ | ⟨rfl, hn, -, hv, -⟩ := hostWrite_next sp n v _ t h
    · exact wf_of_writeReg_next hr hw
    · simp [HostAction.wf, hn, hv]
  | read sp n =>
    obtain ⟨v, hv, -⟩ := hostRead_next sp n _ t h
    exact (wf_read_iff sp n _).2 (by rw [hv]; nofun)
  | wait | reset | idle => rfl

/-- Writes go through only while no operation is in progress (R137). -/
theorem idle_of_hostWrite_next {sp : Space} {n v : Nat} {s t : State} (h : hostWrite sp n v s = .next t) :
    s.busy = false := by
  obtain ⟨r, -, -, hw⟩ | ⟨-, -, hb, -⟩ := hostWrite_next sp n v s t h
  · exact (writeReg_next r v s t hw).1
  · exact hb

/-! ### Host faults -/

/-- A host action that does not go through is a fault. -/
theorem step_faults_of_hostAct {s : State} {a : HostAction} {rest : List HostAction} (hact : HostActs s a rest)
    (h : ∀ t, hostAct a rest s.ticked ≠ .next t) : ∃ f, step s = .fault f := by
  rw [step_of_hostActs s a rest hact]
  cases ho : hostAct a rest s.ticked with
  | next t => exact absurd ho (h t)
  | fault f => exact ⟨f, rfl⟩
  | refused q => exact absurd ho (hostAct_ne_refused a rest _ q)

/-- An action that is not legal stops the machine (R136 items 1 to 5). -/
theorem step_faults_of_not_wf {s : State} {a : HostAction} {rest : List HostAction} (hact : HostActs s a rest)
    (hwf : ¬ a.wf Config.params = true) : ∃ f, step s = .fault f :=
  step_faults_of_hostAct hact fun _ ht => hwf (wf_of_hostAct_next ht)

/-- A write while an operation is in progress stops the machine (R136 item 6, R137). -/
theorem step_faults_of_busy_write {s : State} {sp : Space} {n v : Nat} {rest : List HostAction}
    (hact : HostActs s (.write sp n v) rest) (hb : s.busy = true) : ∃ f, step s = .fault f := by
  refine step_faults_of_hostAct hact fun t ht => ?_
  have hidle : s.ticked.busy = false := idle_of_hostWrite_next (s := { s.ticked with host := rest }) ht
  rw [ticked_busy, hb] at hidle
  cases hidle

/-- What stands at no place is neither read nor written legally. -/
theorem not_wf_of_outside {sp : Space} {n : Nat} (v : Nat)
    (h : (sp = .reg ∧ regAt n = none) ∨ (sp = .ibuf ∧ Config.params.ibufCap ≤ n) ∨ (sp = .obuf ∧ Config.params.obufCap ≤ n)) :
    ¬ (HostAction.read sp n).wf Config.params = true ∧ ¬ (HostAction.write sp n v).wf Config.params = true := by
  obtain ⟨rfl, hr⟩ | ⟨rfl, hn⟩ | ⟨rfl, hn⟩ := h
  · simp [HostAction.wf, hr]
  · simp [HostAction.wf, Nat.not_lt.2 hn]
  · simp [HostAction.wf, Nat.not_lt.2 hn]

/-- A write of an RO register or of OBUF is not legal (R136 item 2). -/
theorem not_wf_of_readOnly {sp : Space} {n : Nat} (v : Nat)
    (h : (∃ r, sp = .reg ∧ regAt n = some r ∧ regAccess r = .ro) ∨ sp = .obuf) :
    ¬ (HostAction.write sp n v).wf Config.params = true := by
  obtain ⟨r, rfl, hr, hro⟩ | rfl := h
  · simp [HostAction.wf, hr, hro]
  · simp [HostAction.wf]

/-- A write of a value that the register does not take is not legal. -/
theorem not_wf_of_not_valueOk {r : RegName} {n v : Nat} (hr : regAt n = some r) (hv : ¬ valueOk Config.params r v = true) :
    ¬ (HostAction.write .reg n v).wf Config.params = true := by
  simp [HostAction.wf, hr, hv]

/-- A write of a value that does not fit its place is not legal (R136 item 3). -/
theorem not_wf_of_tooWide {sp : Space} {n v : Nat}
    (h : (∃ r, sp = .reg ∧ regAt n = some r ∧ 2 ^ regWidth r ≤ v) ∨ (sp = .ibuf ∧ 256 ≤ v)) :
    ¬ (HostAction.write sp n v).wf Config.params = true := by
  obtain ⟨r, rfl, hr, hv⟩ | ⟨rfl, hv⟩ := h
  · exact not_wf_of_not_valueOk hr fun hok => Nat.not_lt.2 hv ((valueOk_iff _ r v).1 hok).1
  · simp [HostAction.wf, hv]

/-- Settles O20: items 1 to 5 of R136 are the actions that are not legal, item 6 the writes of a busy block. -/
theorem hostFaultsStopTheMachine : Obligations.HostFaultsStopTheMachine := by
  intro s rest sp n v
  refine ⟨fun hout => ?outside, fun hro hact => ?readOnly, fun hwide hact => ?tooWide, fun hact hres => ?reserved,
    fun hact hcap => ?capacity, fun _ hact hb => step_faults_of_busy_write hact hb⟩
  case outside =>
    obtain ⟨hread, hwrite⟩ := not_wf_of_outside v hout
    exact ⟨fun hact => step_faults_of_not_wf hact hread, fun hact => step_faults_of_not_wf hact hwrite⟩
  case readOnly => exact step_faults_of_not_wf hact (not_wf_of_readOnly v hro)
  case tooWide => exact step_faults_of_not_wf hact (not_wf_of_tooWide hwide)
  case reserved =>
    have hbit : ¬ valueOk Config.params .ctrl v = true := fun hok => by
      have hlt : v < 2 := ((valueOk_iff _ _ v).1 hok).2.1 rfl
      omega
    exact step_faults_of_not_wf hact (not_wf_of_not_valueOk (regAt_regIndex .ctrl) hbit)
  case capacity =>
    have hlen : ¬ valueOk Config.params .ilen v = true := fun hok => Nat.not_le.2 hcap (((valueOk_iff _ _ v).1 hok).2.2 rfl)
    exact step_faults_of_not_wf hact (not_wf_of_not_valueOk (regAt_regIndex .ilen) hlen)

/-! ### The block while an operation is in progress -/

/-- The one legal value of STATUS with BUSY = 1. -/
theorem status_of_busy {s : State} (hlegal : s.status ∈ legalStatus) (hb : s.busy = true) : s.status = 0x01#8 := by
  have table : ∀ b, b ∈ legalStatus → b.getLsbD 0 = true → b = 0x01#8 := by decide
  exact table s.status hlegal hb

/-- Settles O21: a busy block takes no write, its STATUS is 0x01, and with DONE = 0 the invariant empties the results. -/
theorem busyBlockKeepsItsInputs : Obligations.BusyBlockKeepsItsInputs := by
  intro s hinv hb
  have hstatus : s.status = 0x01#8 := status_of_busy hinv.statusLegal hb
  have hdone : s.done = false := by rw [State.done, hstatus]; rfl
  refine ⟨fun _ _ _ _ hact _ _ => step_faults_of_busy_write hact hb, fun _ _ _ hact => step_faults_of_busy_write hact hb,
    ?status, fun r hro hne => readReg_ro_of_empty r s (hinv.hiddenUntilDone hdone) hro hne⟩
  case status => rw [readReg, hstatus]; rfl

end Sys2Proof.Machine
end

section
/-! PROOFS. Codes, register map, byte order, parameters and buffers: the operation table (`spec/30_encoding.md` R68), the register
map (`spec/10_state.md` R12), wire integers and buffer accesses (`spec/20_memory.md` R46, R50), and the constraints of R2. -/

namespace Sys2Proof

open Machine

/-! ### Operation codes -/

/-- Each row of the table pairs an operation with its code. -/
theorem eq_opcodeOf_of_mem_opTable {e : Byte × Instr} (h : e ∈ opTable) : e.1 = opcodeOf e.2 := by
  have rows : ∀ e, e ∈ opTable → e.1 = opcodeOf e.2 := by decide
  exact rows e h

theorem lookup_opcodeOf (i : Instr) : opTable.lookup (opcodeOf i) = some i := by
  cases i <;> rfl

/-- A byte decodes to an operation exactly if it is the operation's code; nothing else is consumed. -/
theorem decode_eq_ok_iff (b : Byte) (rest rest' : List Byte) (i : Instr) :
    decode (b :: rest) = .ok (i, rest') ↔ b = opcodeOf i ∧ rest' = rest := by
  constructor
  · intro h
    simp only [decode] at h
    split at h
    · rename_i j hj
      cases h
      exact ⟨eq_opcodeOf_of_mem_opTable (mem_of_lookup _ _ _ hj), rfl⟩
    · cases h
  · rintro ⟨rfl, rfl⟩
    simp only [decode, lookup_opcodeOf]

/-- A byte that is no operation's code is refused by name. -/
theorem decode_eq_unassigned {b : Byte} (h : ∀ i, b ≠ opcodeOf i) : decode [b] = .error (.unassignedOp b) := by
  simp only [decode]
  split
  · rename_i i hi
    exact absurd (eq_opcodeOf_of_mem_opTable (mem_of_lookup _ _ _ hi)) (h i)
  · rfl

/-- The ranges in which R68 assigns codes. -/
theorem opcodeOf_assigned (i : Instr) :
    (opcodeOf i).toNat = 0x01 ∨ (opcodeOf i).toNat = 0x02 ∨ (opcodeOf i).toNat = 0x03 ∨ (opcodeOf i).toNat = 0x10 ∨
      (0x20 ≤ (opcodeOf i).toNat ∧ (opcodeOf i).toNat ≤ 0x2E) ∨ (0x30 ≤ (opcodeOf i).toNat ∧ (opcodeOf i).toNat ≤ 0x36) := by
  cases i <;> decide

/-- Settles O1: the rows by computation; a byte outside the assigned ranges is no operation's code, and one that decodes is. -/
theorem operationCodesAsTabled : Obligations.OperationCodesAsTabled := by
  refine ⟨⟨rfl, rfl, rfl, rfl⟩, ⟨rfl, rfl, rfl, rfl, rfl, rfl, rfl, rfl, rfl, rfl, rfl, rfl, rfl, rfl, rfl⟩,
    ⟨rfl, rfl, rfl, rfl, rfl, rfl, rfl⟩, fun b hb => ?unassigned, fun b hb => ?assigned⟩
  case unassigned =>
    refine decode_eq_unassigned fun i hi => ?_
    have hrange := opcodeOf_assigned i
    rw [← hi] at hrange
    omega
  case assigned =>
    cases h : decode [b] with
    | error e => exact absurd h (hb e)
    | ok r =>
      obtain ⟨rfl, -⟩ := (decode_eq_ok_iff b [] r.2 r.1).1 h
      exact opcodeOf_assigned r.1

/-- Settles O2: both directions of `decode_eq_ok_iff`. -/
theorem decodeInvertsEncode : Obligations.DecodeInvertsEncode := by
  refine ⟨fun i rest => (decode_eq_ok_iff _ rest rest i).2 ⟨rfl, rfl⟩, fun b rest rest' i h => ?_⟩
  obtain ⟨rfl, rfl⟩ := (decode_eq_ok_iff b rest rest' i).1 h
  exact ⟨rfl, rfl⟩

/-! ### The register map -/

/-- The ranges in which R12 assigns indices. -/
theorem regIndex_assigned (r : RegName) :
    regIndex r ≤ 0x005 ∨ (0x010 ≤ regIndex r ∧ regIndex r ≤ 0x017) ∨ (0x020 ≤ regIndex r ∧ regIndex r ≤ 0x02D) ∨
      (0x041 ≤ regIndex r ∧ regIndex r ≤ 0x04A) ∨ (0x050 ≤ regIndex r ∧ regIndex r ≤ 0x05D) ∨
      (0x060 ≤ regIndex r ∧ regIndex r ≤ 0x06D) := by
  cases r
  case argGate g | tMGate g | tSGate g => simp only [regIndex]; omega
  all_goals simp [regIndex]

/-- An index is assigned exactly in those ranges. -/
theorem regAt_ne_none_iff (n : Nat) : regAt n ≠ none ↔
    n ≤ 0x005 ∨ (0x010 ≤ n ∧ n ≤ 0x017) ∨ (0x020 ≤ n ∧ n ≤ 0x02D) ∨ (0x041 ≤ n ∧ n ≤ 0x04A) ∨
      (0x050 ≤ n ∧ n ≤ 0x05D) ∨ (0x060 ≤ n ∧ n ≤ 0x06D) := by
  constructor
  · intro h
    obtain ⟨r, hr⟩ := Option.ne_none_iff_exists'.1 h
    rw [← regIndex_of_regAt n r hr]
    exact regIndex_assigned r
  · have table : ∀ k < 0x06E, k ≤ 0x005 ∨ (0x010 ≤ k ∧ k ≤ 0x017) ∨ (0x020 ≤ k ∧ k ≤ 0x02D) ∨ (0x041 ≤ k ∧ k ≤ 0x04A) ∨
        (0x050 ≤ k ∧ k ≤ 0x05D) ∨ (0x060 ≤ k ∧ k ≤ 0x06D) → regAt k ≠ none := by decide
    exact fun h => table n (by omega) h

/-- The widths of R12, by width. -/
theorem regWidth_eq (r : RegName) : regWidth r =
    if r = .argBaud then 32
    else if r ∈ [.ilen, .olen, .rOpcode, .argOpcode, .argDur, .tMDist, .tSDist] then 16
    else if r = .argRes then 2
    else if r ∈ [.argPol, .argOn, .tEng] then 1
    else 8 := by
  cases r
  case argGate g | tMGate g | tSGate g => simp [regWidth]
  all_goals rfl

/-- The RO registers of R12: STATUS, OLEN, R_OPCODE and all from T_STATE on. -/
theorem regAccess_ro_iff (r : RegName) :
    regAccess r = .ro ↔ r = .status ∨ r = .olen ∨ r = .rOpcode ∨ 0x041 ≤ regIndex r := by
  cases r
  case argGate g | tMGate g | tSGate g => simp [regAccess, regIndex]; omega
  all_goals decide

/-- Settles O3: the map and its inverse, then width and access register by register. -/
theorem registerMapAsTabled : Obligations.RegisterMapAsTabled := by
  refine ⟨regAt_ne_none_iff, regAt_regIndex, regIndex_of_regAt, rfl, rfl, rfl, fun g => ?arrays, regWidth_eq,
    fun r => ⟨regAccess_ro_iff r, eq_ctrl_of_regAccess_w, ?ctrl⟩⟩
  case arrays => exact ⟨regAt_regIndex (.argGate g), regAt_regIndex (.tMGate g), regAt_regIndex (.tSGate g)⟩
  case ctrl => rintro rfl; rfl

/-! ### Byte order, buffers and parameters -/

/-- Settles O4: reading as numbers, the bytes written, and the round trip. -/
theorem wireIntegersAreLittleEndian : Obligations.WireIntegersAreLittleEndian := by
  refine ⟨le16_toNat, fun v => ?_, le16_lo8_hi8⟩
  rw [u16le, lo8_eq, hi8_eq]

/-- Settles O5: the two cases of two's complement in eight bits. -/
theorem calibrationByteIsSigned : Obligations.CalibrationByteIsSigned := by
  intro b
  rw [sext8, BitVec.toInt_eq_toNat_cond]
  split <;> split <;> omega

/-- Settles O6: the two cases of a read after a write, and the canonical form. -/
theorem bufferWriteReadsBack : Obligations.BufferWriteReadsBack := by
  intro m k v
  refine ⟨?same, fun a ha => ?other, wf_write m k v⟩
  case same => rw [read_write, if_pos rfl]
  case other => rw [read_write, if_neg ha]

/-- Settles O7: a read of a buffer made from index 0 on. -/
theorem bufferHoldsExactlyTheEmittedBytes : Obligations.BufferHoldsExactlyTheEmittedBytes := by
  intro bytes
  refine ⟨wf_ofBytes 0 bytes, fun a => ?_⟩
  rw [read_ofBytes, if_pos (Nat.zero_le a), Nat.sub_zero]

/-- Settles O46: each conjunct is one of the constraints that `Config.params` carries. -/
theorem parametersMeetTheirConstraints : Obligations.ParametersMeetTheirConstraints :=
  ⟨params_opcodes_nodup, params_payload_le, params_cap_low, params_cap_high, rfl, params_baud_nodup, params_baud_keys,
    params_baud_ends.1, params_baud_ends.2, params_resCodes_nodup⟩

end Sys2Proof
end

section
/-! PROOFS. The host's turn (`spec/10_state.md` R11 to R18, `spec/20_memory.md` R48 to R50, `spec/30_encoding.md` R71, R72): reads,
writes, WAIT and the reset input, and what a step without an access does. -/

namespace Sys2Proof.Machine

/-! ### Steps without an access -/

/-- A block with no operation in progress has no tick. -/
theorem ticked_of_idle {s : State} (hb : s.busy = false) : s.ticked = s := by
  rw [State.ticked, hb]; rfl

/-- While BUSY = 0 the next action is always the host's. -/
theorem hostActs_of_idle {s : State} {a : HostAction} {rest : List HostAction} (hb : s.busy = false)
    (hh : s.host = a :: rest) : HostActs s a rest :=
  ⟨hh, fun h => absurd (hb.symm.trans h) nofun⟩

/-- While BUSY = 0 a step is the host's next action. -/
theorem step_of_idle_action {s : State} {a : HostAction} {rest : List HostAction} (hb : s.busy = false)
    (hh : s.host = a :: rest) : step s = hostAct a rest s := by
  rw [step_of_hostActs s a rest (hostActs_of_idle hb hh), ticked_of_idle hb]

/-- While steps of the draw are left, a step passes one of them and gives the host its turn. -/
theorem step_of_busy_succ {s : State} {k : Nat} (hb : s.busy = true) (hl : s.left = k + 1) :
    step s = hostTurn { s with left := k } := by
  simp only [step, machineStep, hb, hl, if_true]

/-- Settles O11: the host's turn is over without an access. -/
theorem busyStepsOnlyCountDown : Obligations.BusyStepsOnlyCountDown := by
  intro s k hb hl
  rw [step_of_busy_succ hb hl]
  exact ⟨fun hh => by simp only [hostTurn, hh], fun rest hh => by simp only [hostTurn, hh, hostAct]⟩

/-- Settles O12: the step is the host's turn, and the host has no action. -/
theorem endedRunStaysAsItIs : Obligations.EndedRunStaysAsItIs := by
  intro s hh hb
  refine ⟨by simp [State.runEnded, hh, hb], ?_⟩
  rw [step_idle s hb, hostTurn, hh]

/-! ### WAIT and the reset input -/

theorem ticked_status (s : State) : s.ticked.status = s.status := by
  unfold State.ticked; split <;> rfl

theorem ticked_host (s : State) : s.ticked.host = s.host := by
  unfold State.ticked; split <;> rfl

/-- Settles O25: the poll is received, and WAIT stays where the value has DONE = 0. -/
theorem waitPollsStatus : Obligations.WaitPollsStatus := by
  intro s rest hact
  have hdone : s.ticked.done = s.done := by rw [State.done, ticked_status, State.done]
  rw [step_of_hostActs s .wait rest hact, hostAct, hdone, ← ticked_status s, ← ticked_reads s, ← hact.1, ← ticked_host s]
  by_cases hd : s.done = true
  · rw [if_pos hd, if_pos hd]; rfl
  · rw [if_neg hd, if_neg hd]; rfl

@[simp] theorem resetEvent_busy (s : State) : (resetEvent s).busy = false := by
  rw [State.busy, resetEvent_status]; rfl

@[simp] theorem startEvent_busy (s : State) : (startEvent s).busy = true := statusBusy_busy

/-- A reset block holds in every register what it holds after reset. -/
theorem readReg_resetEvent (r : RegName) (s : State) : readReg r (resetEvent s) = readReg r State.reset := by
  cases r <;> rfl

/-- Settles O23: the step is `resetEvent`, whatever was in progress. -/
theorem resetInputAtAnyTime : Obligations.ResetInputAtAnyTime := by
  intro s rest hact
  exact ⟨resetEvent { s.ticked with host := rest }, step_of_hostActs s .reset rest hact, resetEvent_busy _,
    fun r => readReg_resetEvent r _, fun _ => ⟨rfl, rfl⟩, rfl, rfl, ticked_reads s, ticked_draws s⟩

/-! ### Reads -/

/-- What stands at a place depends on the registers and buffers alone: not on the host's actions, nor on the tick. -/
theorem placeValue_ticked_host (sp : Space) (n : Nat) (s : State) (l : List HostAction) :
    placeValue sp n { s.ticked with host := l } = placeValue sp n s := by
  cases sp with
  | reg => simp only [placeValue, readReg_host, readReg_ticked]
  | ibuf => simp only [placeValue, ticked_ibuf]
  | obuf => simp only [placeValue, ticked_res]

/-- A read of a place that holds a value returns it and changes no register and no buffer (R50). -/
theorem step_read {s : State} {rest : List HostAction} {sp : Space} {n v : Nat} (hact : HostActs s (.read sp n) rest)
    (hv : placeValue sp n s = some (some v)) :
    step s = .next { s.ticked with host := rest, reads := s.reads ++ [⟨sp, n, v⟩] } := by
  rw [step_of_hostActs s _ rest hact, hostAct, hostRead, placeValue_ticked_host, hv, ← ticked_reads s]
  rfl

/-- A read of a place that holds no value is a fault (R13). -/
theorem step_read_empty {s : State} {rest : List HostAction} {sp : Space} {n : Nat} (hact : HostActs s (.read sp n) rest)
    (hv : placeValue sp n s = some none) : step s = .fault .readNoValue := by
  rw [step_of_hostActs s _ rest hact, hostAct, hostRead, placeValue_ticked_host, hv]

theorem placeValue_reg {n : Nat} {r : RegName} (s : State) (hr : regAt n = some r) :
    placeValue .reg n s = some (readReg r s) := by
  rw [placeValue, hr]; rfl

theorem placeValue_ibuf {n : Nat} (s : State) (hn : n < Config.params.ibufCap) :
    placeValue .ibuf n s = some (held (s.ibuf.read n)) := if_pos hn

theorem placeValue_obuf {n : Nat} (s : State) (hn : n < Config.params.obufCap) :
    placeValue .obuf n s = some (held (s.res.obuf.read n)) := if_pos hn

/-- Settles O17: the value of a register, an IBUF byte or an OBUF byte is what stands at its place. -/
theorem hostReadsHaveNoSideEffect : Obligations.HostReadsHaveNoSideEffect := by
  intro s rest n
  refine ⟨fun r v hact hr hv => ?reg, fun r hact hr hv => ?regEmpty, fun b hact hn hb => ?ibuf, fun hact hn hb => ?ibufEmpty,
    fun b hact hn hb => ?obuf, fun hact hn hb => ?obufEmpty⟩
  case reg => exact step_read hact (by rw [placeValue_reg s hr, hv])
  case regEmpty => exact step_read_empty hact (by rw [placeValue_reg s hr, hv])
  case ibuf => exact step_read hact (by rw [placeValue_ibuf s hn, hb]; rfl)
  case ibufEmpty => exact step_read_empty hact (by rw [placeValue_ibuf s hn, hb]; rfl)
  case obuf => exact step_read hact (by rw [placeValue_obuf s hn, hb]; rfl)
  case obufEmpty => exact step_read_empty hact (by rw [placeValue_obuf s hn, hb]; rfl)

/-! ### Writes -/

/-- A fitting write of an RW register while BUSY = 0 sets the register. -/
theorem writeReg_rw {r : RegName} {v : Nat} {s : State} (hb : s.busy = false) (hrw : regAccess r = .rw)
    (hv : v < 2 ^ regWidth r) (hcap : r = .ilen → v ≤ Config.params.ibufCap) : writeReg r v s = .next (setReg r v s) := by
  have hro : regAccess r ≠ .ro := by rw [hrw]; nofun
  have hctrl : r ≠ .ctrl := by rintro rfl; cases hrw
  have hlen : ¬ (r = .ilen ∧ Config.params.ibufCap < v) := fun ⟨hi, hlt⟩ => Nat.not_lt.2 (hcap hi) hlt
  simp only [writeReg, if_neg hro, hb, Bool.false_eq_true, if_false, if_neg (Nat.not_le.2 hv), if_neg hctrl, if_neg hlen]

/-- Settles O18: the step sets the register, which the register file reads back. -/
theorem hostWritesOneRegister : Obligations.HostWritesOneRegister := by
  intro s rest n v r hb hh hr hrw hv hcap
  have hstep : step s = .next (setReg r v { s with host := rest }) := by
    rw [step_of_idle_action hb hh]
    simp only [hostAct, hostWrite, hr]
    exact writeReg_rw (s := { s with host := rest }) hb hrw hv hcap
  refine ⟨_, hstep, ?written, fun r' hr' => ?others, by simp, by simp, by simp, by simp, by simp, by simp⟩
  case written => rw [readReg_setReg r r v _ hrw hv, if_pos rfl]
  case others => rw [readReg_setReg r r' v _ hrw hv, if_neg hr', readReg_host]

/-- A write of a byte of IBUF while BUSY = 0 writes that byte of the buffer. -/
theorem step_write_ibuf {s : State} {rest : List HostAction} {n v : Nat} (hb : s.busy = false)
    (hh : s.host = .write .ibuf n v :: rest) (hn : n < Config.params.ibufCap) (hv : v < 256) :
    step s = .next { s with host := rest, ibuf := s.ibuf.write n (BitVec.ofNat 8 v) } := by
  have hidle : ({ s with host := rest } : State).busy = false := hb
  rw [step_of_idle_action hb hh]
  simp only [hostAct, hostWrite, if_neg (Nat.not_le.2 hn), hidle, Bool.false_eq_true, if_false, if_neg (Nat.not_le.2 hv)]

/-- Settles O19: the step writes one byte, which is read back. -/
theorem hostWritesOneInputByte : Obligations.HostWritesOneInputByte := by
  intro s rest n v hb hh hn hv
  refine ⟨_, step_write_ibuf hb hh hn hv, ?same, fun a ha => ?other⟩
  case same => rw [read_write, if_pos rfl]
  case other => rw [read_write, if_neg ha]

/-! ### CTRL -/

/-- A START of an OP with all it reads in place goes through. -/
theorem startOp_of_ready {s : State} {w : Byte} (hop : s.op = some w)
    (hready : ∀ i r, decode [w] = .ok (i, r) → OperandsHeld i s) : startOp s = .next (startEvent s) := by
  cases hd : decode [w] with
  | error e => simp only [startOp, hop, hd]
  | ok r => simp only [startOp, hop, hd, (operandFault_eq_none r.1 s).2 (hready r.1 r.2 hd)]

/-- The operands of an operation are among the ARG registers. -/
theorem readReg_of_args_eq {i : Instr} {r : RegName} {s u : State} (hr : r ∈ operandRegs i) (hargs : s.args = u.args) :
    readReg r s = readReg r u := by
  have other : RegName.op ∉ operandRegs i ∧ RegName.ilen ∉ operandRegs i := by cases i <;> decide
  have hrw : regAccess r = .rw := operandRegs_rw i r hr
  cases r
  case op => exact absurd hr other.1
  case ilen => exact absurd hr other.2
  case argOpcode | argRes | argMin | argMax | argDur | argPol | argBaud | argOn | argGate => simp only [readReg, hargs]
  all_goals cases hrw

/-- What an operation reads is in place in every state with the same operand registers, ILEN and IBUF. -/
theorem OperandsHeld.of_inputs_eq {i : Instr} {s u : State} (h : OperandsHeld i s) (hargs : s.args = u.args)
    (hilen : s.ilen = u.ilen) (hibuf : s.ibuf = u.ibuf) : OperandsHeld i u :=
  ⟨fun r hr => readReg_of_args_eq hr hargs ▸ h.1 r hr, hilen ▸ hibuf ▸ h.2⟩

/-- A write of 0 to CTRL has no effect. -/
theorem step_write_ctrl_zero {s : State} {rest : List HostAction} (hb : s.busy = false)
    (hh : s.host = .write .reg 0x001 0 :: rest) : step s = .next { s with host := rest } := by
  have hidle : ({ s with host := rest } : State).busy = false := hb
  have hctrl : regAt 0x001 = some .ctrl := regAt_regIndex .ctrl
  rw [step_of_idle_action hb hh]
  simp [hostAct, hostWrite, hctrl, writeReg, regAccess, hidle, regWidth, writeCtrl]

/-- Settles O15: a START, no effect, an illegal write, and a read of 0. -/
theorem controlRegisterStartsOperations : Obligations.ControlRegisterStartsOperations := by
  refine ⟨fun s rest w hb hh hop hready => ?start, fun s rest hb hh => step_write_ctrl_zero hb hh,
    fun s rest v hb hh hv => ?reserved, fun s rest hb hh => ?readsZero⟩
  case start =>
    have hgo : startOp { s with host := rest } = .next (startEvent { s with host := rest }) :=
      startOp_of_ready hop fun i r hd => (hready i r hd).of_inputs_eq rfl rfl rfl
    exact ⟨_, (step_start hb hh).trans hgo, rfl, rfl, rfl, rfl, rfl, rfl, rfl, rfl, rfl, rfl⟩
  case reserved =>
    have hbit : ¬ valueOk Config.params .ctrl v = true := fun hok => by
      have hlt : v < 2 := ((valueOk_iff _ _ v).1 hok).2.1 rfl
      omega
    exact step_faults_of_not_wf (hostActs_of_idle hb hh) (not_wf_of_not_valueOk (regAt_regIndex .ctrl) hbit)
  case readsZero =>
    rw [step_read (v := 0) (hostActs_of_idle hb hh) (placeValue_regIndex .ctrl s), ticked_of_idle hb]

/-! ### The life of the results -/

/-- Settles O26: of the turns that go through, only the reset input and a START write STATUS or a result, and a START leaves
BUSY = 1. -/
theorem resultsLiveUntilTheNextStart : Obligations.ResultsLiveUntilTheNextStart := by
  intro s t hstep hs ht hreset
  rw [step_idle s hs] at hstep
  cases hostTurn_next s t hstep with
  | nothing | skipped | received | inputByte => exact ⟨rfl, rfl⟩
  | register rest r v _ _ _ _ => exact ⟨setReg_res r v _, setReg_status r v _⟩
  | resetDone rest hh => exact absurd hh (hreset rest)
  | started rest _ _ _ _ => exact absurd ((startEvent_busy _).symm.trans ht) nofun

end Sys2Proof.Machine
end

section
/-! PROOFS. The operations: the builders' frames (`spec/41_command_builders.md`), ENC_CMD (`spec/40_envelope.md` R77), DEC_TARGET
outside and inside a Target frame (`spec/42_target_decoder.md`), which operations complete (R123) and with which CODE (R69). -/

namespace Sys2Proof.Machine

/-! ### Builders and ENC_CMD -/

/-- Settles O44: each of the seven commands is a constant. -/
theorem thinBuilders : Obligations.ThinBuilders := fun _ =>
  ⟨completes_of_builderCommand rfl, completes_of_builderCommand rfl, completes_of_builderCommand rfl,
    completes_of_builderCommand rfl, completes_of_builderCommand rfl, completes_of_builderCommand rfl,
    completes_of_builderCommand rfl⟩

/-- Settles O45: each of the seven commands is a constant. -/
theorem queryBuilders : Obligations.QueryBuilders := fun _ =>
  ⟨completes_of_builderCommand rfl, completes_of_builderCommand rfl, completes_of_builderCommand rfl,
    completes_of_builderCommand rfl, completes_of_builderCommand rfl, completes_of_builderCommand rfl,
    completes_of_builderCommand rfl⟩

/-- Settles O35: ENC_CMD is `BUILD`, and a frame has 12 bytes more than its payload, as OBUF has more than IBUF. -/
theorem encCmdOutcome : Obligations.EncCmdOutcome := by
  intro s c p hop hin hlen
  refine ⟨completes_of_build .encCmd s c p (exec_encCmd_eq_build hop hin) hlen, fun hcap => ?_⟩
  rw [wireCmd_length]
  exact Nat.add_le_add_right hcap 12

/-- Settles O36: OLEN takes the free value of the frame. -/
theorem encCmdOfTheLongestPayloads : Obligations.EncCmdOfTheLongestPayloads := by
  intro s c p hop hin _
  refine ⟨olenOf (wireCmd c p), completes_of_finish (code := .ok) (kind := .none) ?_ (by decide)⟩
  rw [exec_encCmd_eq_build hop hin, build, cmdFrame_eq_wireCmd]
  rfl

/-- What an operation writes it writes from every state with the same inputs; the rest of that state stays. -/
theorem exec_next_of_sameInputs {i : Instr} {s u t : State} (h : SameInputs i s u) (ht : exec i s = .next t) :
    exec i u = .next { u with status := t.status, res := t.res } := by
  obtain ⟨v, hv, hstatus, hres⟩ := (outcomeIsAFunctionOfTheInputs i s u h).1 t ht
  obtain ⟨code, kind, r, rfl⟩ := exec_next i u v hv
  rw [hv, ← hstatus, ← hres]

/-- An operation that does not read `IN` has the same inputs whatever ILEN and IBUF hold. -/
theorem sameInputs_of_not_readsInput {i : Instr} {s u : State} (hi : readsInput i = false) (hargs : s.args = u.args) :
    SameInputs i s u :=
  ⟨fun _ hr => readReg_of_args_eq hr hargs, fun h => absurd (hi.symm.trans h) nofun⟩

/-- Settles O47: by the builder's command, and because ILEN and IBUF are no inputs of it. -/
theorem buildersReadOnlyTheirOperands : Obligations.BuildersReadOnlyTheirOperands := by
  intro i s hi
  refine ⟨fun c p h => ⟨payload_le_of_builderCommand h, completes_of_builderCommand h⟩, (builder_cases i s hi).2,
    fun n m t ht => ?elsewhere⟩
  case elsewhere =>
    have same : SameInputs i s { s with ilen := n, ibuf := m } := sameInputs_of_not_readsInput hi rfl
    rw [exec_next_of_sameInputs same ht]
    obtain ⟨code, kind, r, rfl⟩ := exec_next i s t ht
    rfl

/-! ### DEC_TARGET on what is no well-formed Target frame -/

theorem completes_decTarget_of_noMatch {s : State} {bytes : List Byte} (hin : InputIs s bytes)
    (he : envDecode bytes = .noMatch) : Completes .decTarget s 0x0A#8 Results.empty := by
  refine completes_of_finish (code := .frameMalformed) (kind := .none) ?_ (by decide)
  rw [exec, execDecTarget, withInput_some s bytes _ ((inputBytes_eq_some s bytes).2 hin), he]
  rfl

theorem completes_decTarget_of_err {s : State} {bytes : List Byte} {code : StatusCode} {kind : FrameKind}
    (hin : InputIs s bytes) (he : envDecode bytes = .err code kind) :
    Completes .decTarget s (statusDone code kind) Results.empty := by
  refine completes_of_finish ?_ rfl
  rw [exec, execDecTarget, withInput_some s bytes _ ((inputBytes_eq_some s bytes).2 hin), he]
  rfl

/-- A Command/Ack frame is a malformed frame for DEC_TARGET. -/
theorem completes_decTarget_of_cmdAck {s : State} {bytes : List Byte} {c : Half} {p : List Byte} (hin : InputIs s bytes)
    (he : envDecode bytes = .cmdAck c p) : Completes .decTarget s 0x4A#8 Results.empty := by
  refine completes_of_finish (code := .frameMalformed) (kind := .cmdAck) ?_ (by decide)
  rw [exec, execDecTarget, withInput_some s bytes _ ((inputBytes_eq_some s bytes).2 hin), he]
  rfl

/-- Settles O29: each form of `IN` has one envelope decode, none of which is a Target frame. -/
theorem decTargetEnvelopeErrors : Obligations.DecTargetEnvelopeErrors := by
  intro s
  refine ⟨fun bytes hin hcmd htgt => ?noPair, fun m hin hm => ?cmdShort, fun m hin hm => ?targetShort,
    fun l0 l1 o0 o1 p hin => ?cmd, fun l0 l1 t hin hl => ?target⟩
  case noPair => exact completes_decTarget_of_noMatch hin (envDecode_noMatch bytes hcmd htgt)
  case cmdShort => exact completes_decTarget_of_err hin (envDecode_cmd_short m hm)
  case targetShort => exact completes_decTarget_of_err hin (envDecode_target_short m hm)
  case cmd =>
    have he := envDecode_cmd l0 l1 o0 o1 p
    split <;> rename_i hl
    · exact completes_decTarget_of_cmdAck hin (he.trans (if_pos hl))
    · exact completes_decTarget_of_err hin (he.trans (if_neg hl))
  case target => exact completes_decTarget_of_err hin ((envDecode_target l0 l1 t).trans (if_neg hl))

/-! ### DEC_TARGET on reports -/

/-- Settles O30: the intraframe decodes to its fields, without engineering data. -/
theorem decTargetBasicReport : Obligations.DecTargetBasicReport := by
  intro s st mLo mHi mEn sLo sHi sEn calib hst hin
  have hdec := intraDecode_basic st mLo mHi mEn sLo sHi sEn calib hst
  rw [le16_eq_ofNat, le16_eq_ofNat] at hdec
  exact completes_of_finish (exec_decTarget_of_intra_ok hin hdec) (by decide)

/-- The number of target bytes is known for the two datatypes only (R65). -/
theorem targetByteCount_eq_some {d : Byte} {need : Nat} (h : targetByteCount d = some need) :
    (d = 0x02#8 ∧ need = 7) ∨ (d = 0x01#8 ∧ need = 38) := by
  unfold targetByteCount at h
  split at h
  · cases h; exact .inl ⟨‹_›, rfl⟩
  · split at h
    · cases h; exact .inr ⟨‹_›, rfl⟩
    · cases h

/-- The state byte is the first target byte (R107). -/
theorem basicDecode_state (tb : List Byte) : (basicDecode (slice tb 0 7)).state = byteAt tb 0 := by
  cases tb <;> rfl

/-- An intraframe that decodes has the shape, a known datatype with its count of target bytes, and a legal state byte (R106). -/
theorem shape_of_intraDecode_ok {t : List Byte} {basic : BasicData} {eng : Option EngData} {calib : Byte}
    (h : intraDecode t = .ok basic eng calib) :
    ∃ d tb, t = [d, 0xAA#8] ++ tb ++ [0x55#8, calib] ∧ basic.state = byteAt tb 0 ∧ (byteAt tb 0).toNat ≤ 6 ∧
      ((d = 0x02#8 ∧ tb.length = 7) ∨ (d = 0x01#8 ∧ tb.length = 38)) := by
  by_cases hshape : ∃ d tb c, t = [d, 0xAA#8] ++ tb ++ [0x55#8, c]
  case neg =>
    rw [intraDecode_unshaped t fun d tb c e => hshape ⟨d, tb, c, e⟩] at h
    cases h
  obtain ⟨d, tb, c, rfl⟩ := hshape
  rw [intraDecode_shaped] at h
  split at h
  case h_1 => cases h
  case h_2 need hneed =>
    by_cases hlen : tb.length ≠ need
    case pos => rw [if_pos hlen] at h; cases h
    by_cases hstate : 0x06 < (byteAt tb 0).toNat
    case pos => rw [if_neg hlen, if_pos hstate] at h; cases h
    rw [if_neg hlen, if_neg hstate] at h
    obtain ⟨rfl, -, rfl⟩ := IntraResult.ok.inj h
    have hlen' : tb.length = need := Decidable.not_not.1 hlen
    exact ⟨d, tb, rfl, basicDecode_state tb, Nat.not_lt.1 hstate, hlen' ▸ targetByteCount_eq_some hneed⟩

/-- Seven target bytes behind datatype 2 are a basic report. -/
theorem exists_basicIntra {tb : List Byte} (hlen : tb.length = 7) (hst : (byteAt tb 0).toNat ≤ 6) (calib : Byte) :
    ∃ st mLo mHi mEn sLo sHi sEn : Byte, st.toNat ≤ 6 ∧
      [0x02#8, 0xAA#8] ++ tb ++ [0x55#8, calib] = basicIntra st mLo mHi mEn sLo sHi sEn calib := by
  obtain ⟨st, mLo, mHi, mEn, sLo, sHi, sEn, rfl⟩ := seven_bytes tb hlen
  exact ⟨st, mLo, mHi, mEn, sLo, sHi, sEn, hst, rfl⟩

/-- Thirty-eight target bytes behind datatype 1 are an extended report. -/
theorem exists_extendedIntra {tb : List Byte} (hlen : tb.length = 38) (hst : (byteAt tb 0).toNat ≤ 6) (calib : Byte) :
    ∃ (st mLo mHi mEn sLo sHi sEn b1 b2 : Byte) (mg sg : Vector Byte 14) (light : Byte), st.toNat ≤ 6 ∧
      [0x01#8, 0xAA#8] ++ tb ++ [0x55#8, calib] = extendedIntra st mLo mHi mEn sLo sHi sEn b1 b2 mg sg light calib := by
  obtain ⟨st, mLo, mHi, mEn, sLo, sHi, sEn, b1, b2, mg, sg, light, rfl⟩ := thirtyeight_bytes tb hlen
  exact ⟨st, mLo, mHi, mEn, sLo, sHi, sEn, b1, b2, mg, sg, light, hst, by simp [extendedIntra]⟩

/-- The CODE after an operation that is known to complete with a STATUS. -/
theorem Completes.code_eq {i : Instr} {s t : State} {status : Byte} {r : Results} (h : Completes i s status r)
    (ht : exec i s = .next t) : t.code = status.extractLsb' 2 4 := by
  rw [Host.Outcome.next.inj (ht.symm.trans h)]; rfl

/-- DEC_TARGET with CODE = OK has found a Target frame. -/
theorem exists_wireTarget_of_decTarget_ok {s t : State} {bytes : List Byte} (hin : InputIs s bytes)
    (ht : exec .decTarget s = .next t) (hok : t.code = 0#4) : ∃ intra, bytes = wireTarget intra := by
  cases he : envDecode bytes with
  | noMatch =>
    have hcode := (completes_decTarget_of_noMatch hin he).code_eq ht
    rw [hok] at hcode
    exact absurd hcode (by decide)
  | err code kind =>
    have hcode := (completes_decTarget_of_err hin he).code_eq ht
    rw [hok, statusDone_code] at hcode
    rcases (envDecode_err bytes code kind he).1 with rfl | rfl <;> exact absurd hcode (by decide)
  | cmdAck c p =>
    have hcode := (completes_decTarget_of_cmdAck hin he).code_eq ht
    rw [hok] at hcode
    exact absurd hcode (by decide)
  | target intra => exact ⟨intra, (eq_wireTarget_of_envDecode bytes intra he).1⟩

/-- Settles O34: success means a Target frame whose intraframe decoded, which is one of the two reports; and both succeed. -/
theorem decTargetSucceedsExactlyOnReports : Obligations.DecTargetSucceedsExactlyOnReports := by
  intro s bytes hin
  constructor
  · rintro ⟨t, ht, hok⟩
    obtain ⟨intra, rfl⟩ := exists_wireTarget_of_decTarget_ok hin ht hok
    obtain ⟨basic, eng, calib, hdec, -⟩ := exists_intraDecode_of_decTarget_ok hin ht hok
    obtain ⟨d, tb, rfl, -, hst, ⟨rfl, hlen⟩ | ⟨rfl, hlen⟩⟩ := shape_of_intraDecode_ok hdec
    · obtain ⟨st, mLo, mHi, mEn, sLo, sHi, sEn, hst, e⟩ := exists_basicIntra hlen hst calib
      exact .inl ⟨st, mLo, mHi, mEn, sLo, sHi, sEn, calib, hst, congrArg wireTarget e⟩
    · obtain ⟨st, mLo, mHi, mEn, sLo, sHi, sEn, b1, b2, mg, sg, light, hst, e⟩ := exists_extendedIntra hlen hst calib
      exact .inr ⟨st, mLo, mHi, mEn, sLo, sHi, sEn, b1, b2, mg, sg, light, calib, hst, congrArg wireTarget e⟩
  · rintro (⟨st, mLo, mHi, mEn, sLo, sHi, sEn, calib, hst, rfl⟩ |
      ⟨st, mLo, mHi, mEn, sLo, sHi, sEn, b1, b2, mg, sg, light, calib, hst, rfl⟩)
    · have h := decTargetBasicReport s st mLo mHi mEn sLo sHi sEn calib hst hin
      exact ⟨_, h, h.code_eq h⟩
    · obtain ⟨gm, gs, -, h⟩ :=
        decTargetExtendedReport s st mLo mHi mEn sLo sHi sEn b1 b2 mg sg light calib hst hin
      exact ⟨_, h, h.code_eq h⟩

/-! ### Which operations complete -/

/-- The operation goes through: it is neither a fault nor refused. -/
def GoesThrough (o : Host.Outcome State Fault Refusal) : Prop := ∃ t, o = .next t

theorem goesThrough_finish (code : StatusCode) (kind : FrameKind) (r : Results) (s : State) :
    GoesThrough (finish code kind r s) := ⟨_, rfl⟩

theorem goesThrough_withOperand {α : Type} {P : Prop} (o : Option α) {f : α → Host.Outcome State Fault Refusal}
    (h : ∀ a, GoesThrough (f a) ↔ P) : GoesThrough (withOperand o f) ↔ o ≠ none ∧ P := by
  cases o with
  | none => simp [GoesThrough, withOperand]
  | some a => simp [withOperand, h a]

theorem goesThrough_withInput (s : State) {f : List Byte → Host.Outcome State Fault Refusal}
    (h : ∀ bytes, GoesThrough (f bytes)) : GoesThrough (withInput s f) ↔ inputBytes s ≠ none := by
  unfold withInput
  cases inputBytes s with
  | none => simp [GoesThrough]
  | some bytes => simp [h bytes]

/-- An operation whose last operand is `o` goes through exactly if it holds a value. -/
theorem goesThrough_withOperand_last {α : Type} (o : Option α) {f : α → Host.Outcome State Fault Refusal}
    (h : ∀ a, GoesThrough (f a)) : GoesThrough (withOperand o f) ↔ o ≠ none := by
  rw [goesThrough_withOperand (P := True) o fun a => iff_true_intro (h a), and_true]

/-- The input bytes hold values exactly where `IN` is some byte string. -/
theorem inputBytes_ne_none (s : State) : inputBytes s ≠ none ↔ ∀ k, k < s.ilen.toNat → s.ibuf.read k ≠ none := by
  rw [← Option.isSome_iff_ne_none, inputBytes_isSome]

/-- The operands and input of an operation that reads no operand register. -/
theorem operandsHeld_iff_input {i : Instr} (s : State) (hregs : operandRegs i = []) (hi : readsInput i = true) :
    OperandsHeld i s ↔ inputBytes s ≠ none := by
  simp [OperandsHeld, hregs, hi, inputBytes_ne_none]

/-- The operands of an operation that does not read `IN`. -/
theorem operandsHeld_iff_regs {i : Instr} (s : State) (hi : readsInput i = false) :
    OperandsHeld i s ↔ ∀ r, r ∈ operandRegs i → readReg r s ≠ none := by
  simp [OperandsHeld, hi]

/-- Every operation goes through exactly if all it reads holds a value (R123). -/
theorem exec_goesThrough_iff (i : Instr) (s : State) : GoesThrough (exec i s) ↔ OperandsHeld i s := by
  cases i
  case decFrame | decAck =>
    rw [operandsHeld_iff_input s rfl rfl]
    refine goesThrough_withInput s fun bytes => ?_
    cases envDecode bytes <;> exact goesThrough_finish _ _ _ s
  case decTarget =>
    rw [operandsHeld_iff_input s rfl rfl]
    refine goesThrough_withInput s fun bytes => ?_
    cases envDecode bytes with
    | target intra => cases hi : intraDecode intra <;> simp only [hi] <;> exact goesThrough_finish _ _ _ s
    | noMatch | err | cmdAck => exact goesThrough_finish _ _ _ s
  case encCmd =>
    refine (goesThrough_withOperand _ fun _ => goesThrough_withInput s fun _ => goesThrough_finish _ _ _ s).trans ?_
    simp [OperandsHeld, operandRegs, readsInput, readReg, held_ne_none, inputBytes_ne_none]
  case bldSetBasicParams =>
    refine (goesThrough_withOperand _ fun _ => goesThrough_withOperand _ fun _ => goesThrough_withOperand _ fun _ =>
      goesThrough_withOperand_last _ fun _ => goesThrough_finish _ _ _ s).trans ?_
    rw [operandsHeld_iff_regs s rfl]
    simp [operandRegs, readReg, held_ne_none]
  case bldSetMotionSens | bldSetStaticSens =>
    refine (goesThrough_withOperand_last _ fun _ => goesThrough_finish _ _ _ s).trans ?_
    rw [operandsHeld_iff_regs s rfl, ← Option.isSome_iff_ne_none]
    exact (operandsHeld_gates s).symm
  case bldSetResolution | bldSetBaud | bldBluetooth =>
    refine (goesThrough_withOperand_last _ fun _ => goesThrough_finish _ _ _ s).trans ?_
    rw [operandsHeld_iff_regs s rfl]
    simp [operandRegs, readReg, held_ne_none]
  all_goals
    refine (iff_true_intro (goesThrough_finish _ _ _ s)).trans ?_
    rw [operandsHeld_iff_regs s rfl]
    simp [operandRegs]

/-- An operation that does not go through stops with one of the two faults of R123. -/
theorem exec_faults_of_not_goesThrough {i : Instr} {s : State} (h : ¬ GoesThrough (exec i s)) :
    exec i s = .fault .operandNoValue ∨ exec i s = .fault .inputNoValue := by
  have e := exec_ends i s
  generalize exec i s = o at e h
  cases e with
  | completes code kind r => exact absurd (goesThrough_finish code kind r s) h
  | operand => exact .inl rfl
  | input => exact .inr rfl

/-- A completion has DONE = 1 and BUSY = 0. -/
theorem CompletedFrom.done_busy {s t : State} (h : CompletedFrom s t) : t.done = true ∧ t.busy = false := by
  obtain ⟨code, kind, r, rfl⟩ := h
  exact ⟨statusDone_done code kind, statusDone_busy code kind⟩

/-- Settles O52: an operation goes through exactly if it has all it reads, and stops with a fault of R123 else. -/
theorem operationCompletesWhenOperandsHeld : Obligations.OperationCompletesWhenOperandsHeld := by
  intro i s
  refine ⟨fun h => ?completes, fun h => exec_faults_of_not_goesThrough fun hgo => h ((exec_goesThrough_iff i s).1 hgo)⟩
  case completes =>
    obtain ⟨t, ht⟩ := (exec_goesThrough_iff i s).2 h
    exact ⟨t, ht, (exec_next i s t ht).done_busy⟩

/-! ### Which CODE an operation ends with -/

/-- Settles O53: the outcomes of `exec_completesAs`, by their CODE. -/
theorem onlySuccessWritesResults : Obligations.OnlySuccessWritesResults := by
  intro i s t ht
  cases exec_completesAs i s t ht with
  | ok kind r hfin => exact .inl (finish_fields hfin).1
  | notOk code kind hfin hno =>
    obtain ⟨hcode, hres, -⟩ := finish_fields hfin
    rw [hcode]
    cases hno with
    | notRecognized => exact .inr (.inl ⟨rfl, rfl, hres⟩)
    | ackNoPair | targetNoPair | baud | resolution => exact .inr (.inr ⟨by decide, by decide, hres⟩)
    | frame _ _ hc _ | ack _ _ hc _ | target _ _ hc _ | intra _ hc =>
      rcases hc with rfl | rfl <;> exact .inr (.inr ⟨by decide, by decide, hres⟩)

/-- Settles O54: OK is 0, and the other outcomes are those of `NotOk`, operation by operation. -/
theorem codesAsTabled : Obligations.CodesAsTabled := by
  intro i s t ht
  cases exec_completesAs i s t ht with
  | ok kind r hfin => rw [(finish_fields hfin).1]; simp [codeBits]
  | notOk code kind hfin hno =>
    rw [(finish_fields hfin).1]
    cases hno with
    | notRecognized | ackNoPair | targetNoPair | baud | resolution => simp [codeBits]
    | frame _ _ hc _ | ack _ _ hc _ | target _ _ hc _ | intra _ hc => rcases hc with rfl | rfl <;> simp [codeBits]

end Sys2Proof.Machine
end

section
/-! PROOFS. The completion of an operation (`spec/10_state.md` R17, `spec/70_reset_and_hazards.md` R141, R142): the completion
step of assigned and unassigned codes, an operation placed for it, and the steps a polling host sees before it. -/

namespace Sys2Proof.Machine

/-! ### The completion step -/

theorem completeOp_of_assigned {s : State} {w : Byte} {i : Instr} {rest : List Byte} (hop : s.op = some w)
    (hd : decode [w] = .ok (i, rest)) : completeOp s = exec i s := by
  simp only [completeOp, hop, hd]

theorem completeOp_of_unassigned {s : State} {w : Byte} {e : DecodeError} (hop : s.op = some w)
    (hd : decode [w] = .error e) : completeOp s = unsupportedOp s := by
  simp only [completeOp, hop, hd]

theorem step_of_completion {s : State} (hb : s.busy = true) (hl : s.left = 0) : step s = completeOp s := by
  simp only [step, machineStep, hb, hl, if_true]

/-- Settles O8: a completion step runs what OP decodes to. -/
theorem completionStepRunsTheOperation : Obligations.CompletionStepRunsTheOperation := by
  intro s w i rest hb hl hop hd
  rw [step_of_completion hb hl, completeOp_of_assigned hop hd]

/-- Settles O10: neither START nor completion asks for an operand of a code that is not assigned. -/
theorem unassignedCodeEndsUnsupported : Obligations.UnassignedCodeEndsUnsupported := by
  intro s w hop hd
  refine ⟨fun rest hact hb => ?start, fun hb hl => ?completion⟩
  case start =>
    rw [step_start hb hact.1]
    exact startOp_of_ready hop fun i r hok => absurd (hd.symm.trans hok) nofun
  case completion =>
    rw [step_of_completion hb hl, completeOp_of_unassigned hop hd]
    exact completedFrom_finish .unsupportedOperation .none Results.empty s

/-- Settles O14: by the invariant OP is in place and, if it is assigned, all it reads. -/
theorem readyOperationAlwaysCompletes : Obligations.ReadyOperationAlwaysCompletes := by
  intro s hinv hb hl
  obtain ⟨w, hop, hready⟩ := hinv.busyReady hb
  rw [step_of_completion hb hl]
  cases hd : decode [w] with
  | error e =>
    rw [completeOp_of_unassigned hop hd]
    exact ⟨_, rfl, statusDone_busy _ _, statusDone_done _ _⟩
  | ok r =>
    rw [completeOp_of_assigned hop hd]
    obtain ⟨t, ht, hdone, hbusy⟩ := (operationCompletesWhenOperandsHeld r.1 s).1 (hready r.1 r.2 hd)
    exact ⟨t, ht, hbusy, hdone⟩

/-! ### A placed operation -/

theorem busy_withFetchWord (i : Instr) (s : State) : (s.withFetchWord 8 (opcodeOf i).toNat).busy = true := by
  rw [withFetchWord_eq]; exact statusBusy_busy

/-- Settles O9: placing gives the operation its operands and puts it at its completion step. -/
theorem placedWordRunsNext : Obligations.PlacedWordRunsNext := by
  intro s i
  refine ⟨_, rfl, ?runs, operandsHeld_withFetchWord i s, ?frame, fun r ho hs => ?registers, fun a => ?bytes, fun h => ?held⟩
  case runs =>
    refine completionStepRunsTheOperation _ (opcodeOf i) i [] (busy_withFetchWord i s) ?_ ?_
      ((decode_eq_ok_iff _ _ _ _).2 ⟨rfl, rfl⟩) <;> rw [withFetchWord_eq]
  case frame => rw [withFetchWord_eq, giveOperands_only i s]; rfl
  case registers => rw [readReg_withFetchWord i s r ho hs, readReg_giveOperands]
  case bytes => rw [withFetchWord_eq]; exact read_giveOperands i s a
  case held => rw [withFetchWord_eq, giveOperands_held i s h]; rfl

/-! ### A host that polls -/

/-- The state after the remaining steps of the draw, in each of which the host has read STATUS = 0x01. -/
def State.polled (s : State) : State :=
  { s with left := 0, reads := s.reads ++ List.replicate s.left ⟨.reg, 0x002, 0x01⟩ }

theorem polled_of_left_zero {s : State} (h : s.left = 0) : s.polled = s := by
  cases s; cases h; simp [State.polled]

theorem run_succ (k : Nat) (s t : State) (h : step s = .next t) :
    Host.Core.run Sys2Proof.core (k + 1) s = Host.Core.run Sys2Proof.core k t := by
  have hcore : Sys2Proof.core.step s = .next t := h
  simp only [Host.Core.run, hcore]

theorem busy_of_statusBusy {s : State} (h : s.status = 0x01#8) : s.busy = true := by
  rw [State.busy, h]; rfl

/-- While steps of the draw are left, WAIT reads STATUS = 0x01 and stays. -/
theorem step_wait_busy {s : State} {acts : List HostAction} {k : Nat} (hst : s.status = 0x01#8) (hh : s.host = .wait :: acts)
    (hl : s.left = k + 1) : step s = .next { s with left := k, reads := s.reads ++ [⟨.reg, 0x002, 0x01⟩] } := by
  have hact : HostActs s .wait acts := ⟨hh, fun _ => by omega⟩
  have hdone : s.done ≠ true := by rw [State.done, hst]; decide
  have htick : s.ticked = { s with left := k } := by rw [State.ticked, busy_of_statusBusy hst, hl]; rfl
  rw [waitPollsStatus s acts hact, if_neg hdone, htick, ← hh, hst]
  rfl

/-- A polling host's run goes through `polled`, whatever the draw. -/
theorem run_polled {s : State} {acts : List HostAction} (k : Nat) (hst : s.status = 0x01#8) (hh : s.host = .wait :: acts) :
    Host.Core.run Sys2Proof.core (s.left + k) s = Host.Core.run Sys2Proof.core k s.polled := by
  induction hn : s.left generalizing s with
  | zero => rw [polled_of_left_zero hn, Nat.zero_add]
  | succ n ih =>
    rw [Nat.add_right_comm, run_succ _ _ _ (step_wait_busy hst hh hn),
      ih (s := { s with left := n, reads := s.reads ++ [⟨.reg, 0x002, 0x01⟩] }) hst hh rfl]
    simp [State.polled, hn, List.replicate_succ]

/-- Settles O13: the run reaches `polled`, whose step is the completion; the next poll reads DONE = 1. -/
theorem pollingHostSeesCompletion : Obligations.PollingHostSeesCompletion := by
  intro s w i rest acts hst hop hd hheld hh
  have hready : OperandsHeld i s.polled := hheld.of_inputs_eq rfl rfl rfl
  obtain ⟨t, ht, hdone, hbusy⟩ := (operationCompletesWhenOperandsHeld i s.polled).1 hready
  have hstep : step s.polled = .next t :=
    (completionStepRunsTheOperation s.polled w i rest (busy_of_statusBusy hst) rfl hop hd).trans ht
  have hhost : t.host = .wait :: acts := by
    obtain ⟨_, _, _, rfl⟩ := exec_next i _ t ht
    exact hh
  have hpoll : step t = .next { t with host := acts, reads := t.reads ++ [⟨.reg, 0x002, t.status.toNat⟩] } := by
    rw [waitPollsStatus t acts (hostActs_of_idle hbusy hhost), if_pos hdone, ticked_of_idle hbusy]
  refine ⟨t, ht, hdone, hbusy, ?completed, ?waitOver⟩
  case completed => rw [run_polled 1 hst hh, run_succ _ _ _ hstep]; rfl
  case waitOver => rw [run_polled 2 hst hh, run_succ _ _ _ hstep, run_succ _ _ _ hpoll]; rfl

end Sys2Proof.Machine
end

section
/-! PROOFS. The invariant of the machine (`Safety.lean`): what results an operation can write, how each part of the invariant
follows from that, and that every step keeps it. -/

namespace Sys2Proof.Machine

/-! ### The results an operation can write -/

/-- The results of a completion: none, an emitted byte string of bounded length, or a decoded report. -/
inductive Writable (s : State) : Results → Prop where
  | nothing : Writable s Results.empty
  | string (opcode : Option Half) (bytes : List Byte) :
      bytes.length ≤ s.ilen.toNat + 12 ∨ bytes.length ≤ 72 →
      Writable s ({ Results.empty with rOpcode := opcode }.emit bytes)
  | report (intra : List Byte) (basic : BasicData) (eng : Option EngData) (calib : Byte) :
      intraDecode intra = .ok basic eng calib → Writable s (targetResults basic eng calib)

theorem inputBytes_length_eq {s : State} {bytes : List Byte} (h : inputBytes s = some bytes) : bytes.length = s.ilen.toNat :=
  ((inputBytes_eq_some s bytes).1 h).1

theorem cmdFrame_length (c : Half) (p : List Byte) : (cmdFrame c p).length = p.length + 12 := by
  rw [cmdFrame_eq_wireCmd, wireCmd_length]

/-- `BUILD` writes a frame of 12 bytes more than its payload. -/
theorem writable_build {s u t : State} {c : Half} {p : List Byte} (h : build c p u = .next t)
    (hlen : p.length ≤ s.ilen.toNat ∨ p.length ≤ 60) : Writable s t.res := by
  rw [(finish_fields h).2.1]
  exact .string none (cmdFrame c p) (by rw [cmdFrame_length]; omega)

/-- What an envelope decode returns is shorter than what it was given. -/
theorem writable_cmdAck {s u t : State} {bytes : List Byte} {c : Half} {p : List Byte} (hb : inputBytes s = some bytes)
    (he : envDecode bytes = .cmdAck c p) (h : finishCmdAck c p u = .next t) : Writable s t.res := by
  have hlen := inputBytes_length_eq hb
  rw [(eq_wireCmd_of_envDecode bytes c p he).1, wireCmd_length] at hlen
  rw [(finish_fields h).2.1]
  exact .string (some c) p (by omega)

theorem writable_target {s u t : State} {bytes intra : List Byte} (hb : inputBytes s = some bytes)
    (he : envDecode bytes = .target intra) (h : finish .ok .target (Results.empty.emit intra) u = .next t) :
    Writable s t.res := by
  have hlen := inputBytes_length_eq hb
  rw [(eq_wireTarget_of_envDecode bytes intra he).1, wireTarget_length] at hlen
  rw [(finish_fields h).2.1]
  exact .string none intra (by omega)

theorem writable_empty {s u t : State} {code : StatusCode} {kind : FrameKind}
    (h : finish code kind Results.empty u = .next t) : Writable s t.res := by
  rw [(finish_fields h).2.1]
  exact .nothing

/-- A builder writes its command's frame or nothing. -/
theorem writable_of_builder {i : Instr} {s t : State} (hi : readsInput i = false) (ht : exec i s = .next t) :
    Writable s t.res := by
  obtain ⟨hwith, hwithout⟩ := builder_cases i s hi
  cases h : builderCommand Config.params s i with
  | none => rw [(hwithout h t ht).2]; exact .nothing
  | some cmd =>
    obtain ⟨hlen, hbuild, -⟩ := hwith cmd.1 cmd.2 h
    exact writable_build (hbuild.symm.trans ht) (.inr hlen)

/-- Every operation that completes writes one of these. -/
theorem writable_of_exec {i : Instr} {s t : State} (ht : exec i s = .next t) : Writable s t.res := by
  cases i
  case decFrame =>
    obtain ⟨bytes, hb, h⟩ := withInput_next _ _ _ ht
    cases he : envDecode bytes with
    | noMatch | err => rw [he] at h; exact writable_empty h
    | cmdAck => rw [he] at h; exact writable_cmdAck hb he h
    | target => rw [he] at h; exact writable_target hb he h
  case decAck =>
    obtain ⟨bytes, hb, h⟩ := withInput_next _ _ _ ht
    cases he : envDecode bytes with
    | noMatch | err | target => rw [he] at h; exact writable_empty h
    | cmdAck => rw [he] at h; exact writable_cmdAck hb he h
  case decTarget =>
    obtain ⟨bytes, hb, h⟩ := withInput_next _ _ _ ht
    cases he : envDecode bytes with
    | noMatch | err | cmdAck => rw [he] at h; exact writable_empty h
    | target intra =>
      cases hdec : intraDecode intra with
      | err => simp only [he, hdec] at h; exact writable_empty h
      | ok basic eng calib =>
        simp only [he, hdec] at h
        rw [(finish_fields h).2.1]
        exact .report intra basic eng calib hdec
  case encCmd =>
    obtain ⟨c, -, h⟩ := withOperand_next _ _ _ ht
    obtain ⟨p, hp, h⟩ := withInput_next _ _ _ h
    exact writable_build h (.inl (Nat.le_of_eq (inputBytes_length_eq hp)))
  all_goals exact writable_of_builder rfl ht

/-- A decoded report writes no byte string. -/
@[simp] theorem targetResults_obuf (basic : BasicData) (eng : Option EngData) (calib : Byte) :
    (targetResults basic eng calib).obuf = [] := by
  cases eng <;> rfl

@[simp] theorem targetResults_olen (basic : BasicData) (eng : Option EngData) (calib : Byte) :
    (targetResults basic eng calib).olen = none := by
  cases eng <;> rfl

@[simp] theorem targetResults_tState (basic : BasicData) (eng : Option EngData) (calib : Byte) :
    (targetResults basic eng calib).tState = some basic.state := by
  cases eng <;> rfl

/-- A report's engineering registers hold values exactly with T_ENG = 1 (R109). -/
theorem targetResults_engineering (basic : BasicData) (eng : Option EngData) (calib : Byte) :
    ((targetResults basic eng calib).tEng = some 1#1 ∧ (targetResults basic eng calib).engHeld) ∨
      ((targetResults basic eng calib).tEng ≠ some 1#1 ∧ (targetResults basic eng calib).engAbsent) := by
  cases eng with
  | none => exact .inr ⟨by simp, rfl, rfl, rfl, results_empty_gates⟩
  | some e => exact .inl ⟨rfl, nofun, nofun, nofun, fun g => by simp [targetResults]⟩

/-- A decoded report is consistent: no byte string, a legal state, and engineering data as T_ENG says. -/
theorem targetResults_ok {intra : List Byte} {basic : BasicData} {eng : Option EngData} {calib : Byte}
    (h : intraDecode intra = .ok basic eng calib) : (targetResults basic eng calib).Ok where
  emittedString := ⟨[], targetResults_obuf _ _ _, Nat.zero_le _, .inr ⟨targetResults_olen _ _ _, rfl⟩⟩
  stateCode := by
    obtain ⟨d, tb, -, hstate, hle, -⟩ := shape_of_intraDecode_ok h
    rintro v hv
    rw [targetResults_tState, hstate] at hv
    cases hv
    exact hle
  engineering := targetResults_engineering basic eng calib

/-- What is written from a legal ILEN is consistent: OBUF has room for 12 bytes more than IBUF, and for 72. -/
theorem Writable.ok {s : State} {r : Results} (h : Writable s r) (hilen : s.ilen.toNat ≤ Config.params.ibufCap) : r.Ok := by
  cases h with
  | nothing => exact results_empty_ok
  | string opcode bytes hlen =>
    have hcap : 72 ≤ Config.params.ibufCap := params_cap_low
    exact results_emit_ok opcode bytes (by rw [Params.obufCap]; omega)
  | report intra basic eng calib hdec => exact targetResults_ok hdec

/-- What is written leaves OBUF in canonical form. -/
theorem Writable.obuf_wf {s : State} {r : Results} (h : Writable s r) : r.obuf.wf = true := by
  cases h with
  | nothing => rfl
  | string opcode bytes _ => exact wf_ofBytes 0 bytes
  | report intra basic eng calib _ => rw [targetResults_obuf]; rfl

/-! ### The completion step, for assigned and unassigned codes -/

theorem statusDone_ok_legal (kind : FrameKind) : statusDone .ok kind ∈ legalStatus := by
  cases kind <;> decide

/-- The STATUS of an outcome other than OK is a legal value (R20, R69). -/
theorem NotOk.status_legal {i : Instr} {code : StatusCode} {kind : FrameKind} (h : NotOk i code kind) :
    statusDone code kind ∈ legalStatus := by
  cases h with
  | notRecognized | ackNoPair | targetNoPair | baud | resolution => decide
  | intra _ hc => rcases hc with rfl | rfl <;> decide
  | frame _ _ hc hk | ack _ _ hc hk | target _ _ hc hk =>
    cases kind with
    | none => exact absurd rfl hk
    | cmdAck | target => rcases hc with rfl | rfl <;> decide

theorem status_legal_of_exec {i : Instr} {s t : State} (ht : exec i s = .next t) : t.status ∈ legalStatus := by
  cases exec_completesAs i s t ht with
  | ok kind r hfin => cases hfin; exact statusDone_ok_legal kind
  | notOk code kind hfin hno => cases hfin; exact hno.status_legal

/-- What a completion step leaves: a legal STATUS of completion, results that can be written, and none without success. -/
structure Completion (s t : State) : Prop where
  completed : CompletedFrom s t
  statusLegal : t.status ∈ legalStatus
  results : Writable s t.res
  errorWithoutResults : t.code ≠ 0#4 → t.res = Results.empty

theorem completion_of_completeOp {s t : State} (h : completeOp s = .next t) : Completion s t := by
  have hfrom : CompletedFrom s t := completeOp_next s t h
  cases hop : s.op with
  | none => simp only [completeOp, hop] at h; cases h
  | some w =>
    cases hd : decode [w] with
    | error e =>
      rw [completeOp_of_unassigned hop hd] at h
      cases h
      exact ⟨hfrom, (by decide : statusDone .unsupportedOperation .none ∈ legalStatus), .nothing, fun _ => rfl⟩
    | ok r =>
      rw [completeOp_of_assigned hop hd] at h
      exact ⟨hfrom, status_legal_of_exec h, writable_of_exec h, res_eq_empty_of_code_ne_ok h⟩

/-! ### The invariant, event by event -/

/-- Settles O56: after reset nothing holds a value, and no operation is in progress. -/
theorem resetMeetsTheInvariant : Obligations.ResetMeetsTheInvariant where
  statusLegal := by decide
  inputForm := rfl
  inputInside := fun _ h => absurd rfl h
  lengthLegal := Nat.zero_le _
  resultsOk := results_empty_ok
  hiddenUntilDone := fun _ => rfl
  errorWithoutResults := fun _ => rfl
  busyReady := fun h => absurd h (by decide)
  idleLeft := fun _ => rfl

section

variable {s t : State}

/-- The invariant is about the block: not about the host's fields, and about the steps left only while BUSY = 0. -/
theorem State.Inv.of_block (hinv : s.Inv) {k : Nat} (hk : s.busy = false → k = 0) (d : Nat) (l : List HostAction)
    (rs : List HostRead) : ({ s with left := k, draws := d, host := l, reads := rs } : State).Inv where
  statusLegal := hinv.statusLegal
  inputForm := hinv.inputForm
  inputInside := hinv.inputInside
  lengthLegal := hinv.lengthLegal
  resultsOk := hinv.resultsOk
  hiddenUntilDone := hinv.hiddenUntilDone
  errorWithoutResults := hinv.errorWithoutResults
  busyReady := fun hb => by
    obtain ⟨w, hop, hready⟩ := hinv.busyReady hb
    exact ⟨w, hop, fun i r hd => (hready i r hd).of_inputs_eq rfl rfl rfl⟩
  idleLeft := hk

/-- While BUSY = 0, inputs that stay within their capacities may change. -/
theorem State.Inv.of_idle_inputs (hinv : s.Inv) (hb : s.busy = false) (hstatus : t.status = s.status) (hres : t.res = s.res)
    (hleft : t.left = s.left) (hform : t.ibuf.wf = true) (hinside : ∀ a, t.ibuf.read a ≠ none → a < Config.params.ibufCap)
    (hilen : t.ilen.toNat ≤ Config.params.ibufCap) : t.Inv where
  statusLegal := hstatus ▸ hinv.statusLegal
  inputForm := hform
  inputInside := hinside
  lengthLegal := hilen
  resultsOk := hres ▸ hinv.resultsOk
  hiddenUntilDone := fun h => hres.trans (hinv.hiddenUntilDone (by rwa [State.done, hstatus] at h))
  errorWithoutResults := fun h => hres.trans (hinv.errorWithoutResults (by rwa [State.code, hstatus] at h))
  busyReady := fun h => by rw [State.busy, hstatus, ← State.busy, hb] at h; cases h
  idleLeft := fun _ => hleft.trans (hinv.idleLeft hb)

/-- A START with all it reads in place: the results are gone before BUSY = 1 shows (R17, R18). -/
theorem State.Inv.startEvent (hinv : s.Inv)
    (hready : ∃ w, s.op = some w ∧ ∀ i r, decode [w] = .ok (i, r) → OperandsHeld i s) : (startEvent s).Inv where
  statusLegal := by rw [startEvent_status]; decide
  inputForm := hinv.inputForm
  inputInside := hinv.inputInside
  lengthLegal := hinv.lengthLegal
  resultsOk := results_empty_ok
  hiddenUntilDone := fun _ => rfl
  errorWithoutResults := fun _ => rfl
  busyReady := fun _ => by
    obtain ⟨w, hop, hheld⟩ := hready
    exact ⟨w, hop, fun i r hd => (hheld i r hd).of_inputs_eq rfl rfl rfl⟩
  idleLeft := fun h => absurd ((startEvent_busy s).symm.trans h) nofun

/-- The reset input leaves the block as after reset. -/
theorem inv_resetEvent (s : State) : (resetEvent s).Inv :=
  resetMeetsTheInvariant.of_block (fun _ => rfl) s.draws s.host s.reads

/-- A write of ILEN keeps it within the capacity of IBUF (R136 item 5). -/
theorem setReg_ilen_le {r : RegName} {v cap : Nat} (hv : r = .ilen → v ≤ cap) (h : s.ilen.toNat ≤ cap) :
    (setReg r v s).ilen.toNat ≤ cap := by
  cases r
  case ilen => exact Nat.le_trans (Nat.mod_le v _) (hv rfl)
  all_goals exact h

/-- A byte written within the capacity leaves IBUF within it. -/
theorem write_inside {m : Memory} {n cap : Nat} (v : Byte) (hn : n < cap) (h : ∀ a, m.read a ≠ none → a < cap) (a : Nat)
    (ha : (m.write n v).read a ≠ none) : a < cap := by
  rw [read_write] at ha
  by_cases e : a = n
  · exact e ▸ hn
  · rw [if_neg e] at ha
    exact h a ha

/-- The host's turn keeps the invariant. -/
theorem State.Inv.turn (hinv : s.Inv) (h : TurnTo s t) : t.Inv := by
  cases h with
  | nothing _ => exact hinv
  | skipped rest => exact hinv.of_block hinv.idleLeft s.draws rest s.reads
  | received rest sp n v => exact hinv.of_block hinv.idleLeft s.draws rest _
  | resetDone rest _ => exact inv_resetEvent _
  | started rest w _ hop hready =>
    have hhost : ({ s with host := rest } : State).Inv := hinv.of_block hinv.idleLeft s.draws rest s.reads
    exact hhost.startEvent ⟨w, hop, fun i r hd => (hready i r hd).of_inputs_eq rfl rfl rfl⟩
  | register rest r v hb _ _ hcap =>
    refine hinv.of_idle_inputs hb (setReg_status r v _) (setReg_res r v _) (setReg_left r v _) ?_ ?_
      (setReg_ilen_le hcap hinv.lengthLegal) <;> rw [setReg_ibuf]
    · exact hinv.inputForm
    · exact hinv.inputInside
  | inputByte rest n v hb hn _ =>
    exact hinv.of_idle_inputs hb rfl rfl rfl (wf_write _ n _ hinv.inputForm)
      (write_inside _ hn hinv.inputInside) hinv.lengthLegal

/-- A completion keeps the invariant. -/
theorem State.Inv.completion (hinv : s.Inv) (hleft : s.left = 0) (h : Completion s t) : t.Inv := by
  obtain ⟨hfrom, hlegal, hresults, herror⟩ := h
  obtain ⟨hdone, hbusy⟩ := hfrom.done_busy
  obtain ⟨code, kind, r, rfl⟩ := hfrom
  exact {
    statusLegal := hlegal
    inputForm := hinv.inputForm
    inputInside := hinv.inputInside
    lengthLegal := hinv.lengthLegal
    resultsOk := hresults.ok hinv.lengthLegal
    hiddenUntilDone := fun h => absurd (hdone.symm.trans h) nofun
    errorWithoutResults := herror
    busyReady := fun h => absurd (hbusy.symm.trans h) nofun
    idleLeft := fun _ => hleft }

end

/-! ### Every step -/

/-- Settles O57: a step is a completion, or a tick of the draw and the host's turn, or the host's turn alone. -/
theorem stepKeepsTheInvariant : Obligations.StepKeepsTheInvariant := by
  intro s t hinv ht
  obtain ⟨-, hleft, hstep⟩ | ⟨k, hb, -, hstep⟩ | ⟨-, hstep⟩ := step_cases s <;> rw [hstep] at ht
  · exact hinv.completion hleft (completion_of_completeOp ht)
  · have htick : ({ s with left := k } : State).Inv :=
      hinv.of_block (fun h => absurd (hb.symm.trans h) nofun) s.draws s.host s.reads
    exact htick.turn (hostTurn_next _ t ht)
  · exact hinv.turn (hostTurn_next s t ht)

/-- The host's turn keeps the buffers in canonical form: it writes single bytes of IBUF, and empties OBUF. -/
theorem TurnTo.buffers_wf {s t : State} (h : TurnTo s t) (hin : s.ibuf.wf = true) (hout : s.res.obuf.wf = true) :
    t.ibuf.wf = true ∧ t.res.obuf.wf = true := by
  cases h with
  | nothing | skipped | received => exact ⟨hin, hout⟩
  | resetDone _ _ => exact ⟨rfl, rfl⟩
  | started _ _ _ _ _ => exact ⟨hin, rfl⟩
  | register _ r v _ _ _ _ => rw [setReg_ibuf, setReg_res]; exact ⟨hin, hout⟩
  | inputByte _ n v _ _ _ => exact ⟨wf_write _ n _ hin, hout⟩

/-- Settles O58: a completion writes results with a buffer in canonical form and leaves IBUF. -/
theorem stepKeepsTheBufferForm : Obligations.StepKeepsTheBufferForm := by
  intro s t hin hout ht
  obtain ⟨-, -, hstep⟩ | ⟨k, -, -, hstep⟩ | ⟨-, hstep⟩ := step_cases s <;> rw [hstep] at ht
  · obtain ⟨⟨code, kind, r, rfl⟩, -, hresults, -⟩ := completion_of_completeOp ht
    exact ⟨hin, hresults.obuf_wf⟩
  · exact (hostTurn_next _ t ht).buffers_wf hin hout
  · exact (hostTurn_next s t ht).buffers_wf hin hout

end Sys2Proof.Machine
end
